-- ==== Sys2Proof/Word.lean ====
section
/-! DEFINITION. The word types of the engine: the widths of 00_scope.md section 4 and 30_encoding.md R51. -/

namespace Sys2Proof

/-- One cell of `BUF`: a byte (R3, R11). -/
abbrev Byte := BitVec 8

/-- One cell of `SYM`, and the `val` field of a command word (R12, R51). -/
abbrev Cell16 := BitVec 16

/-- A Symbol: one 11-bit group (R3). -/
abbrev Symbol := BitVec 11

/-- A command word (R51). -/
abbrev Word := BitVec 32

/-- The `idx` field of a command word (R51). -/
abbrev Idx := BitVec 12

/-- The 24-bit window over three neighbouring `BUF` cells (R80, R82, R96). -/
abbrev Window := BitVec 24

end Sys2Proof
end

