-- ==== Sys2Proof/Syntax.lean ====
section
/-! DEFINITION. The fourteen commands, one constructor per row of spec/opcode_table.json (30_encoding.md R54). -/

namespace Sys2Proof

/-- A decoded command. `idx` is the 12-bit `idx` field and `val` the 16-bit `val` field, unscaled and unsigned (R52);
a constructor carries the fields its format uses (R53). -/
inductive Instr where
  /-- NOP, format Z (R70). -/
  | nop
  /-- WRB idx, val: write one byte of `BUF`, format XB (R71). Only `val[7:0]` is the byte; `WellFormed` asks that
  `val[15:8]` be zero, as the format does. -/
  | wrb (idx : Idx) (val : Cell16)
  /-- RDB idx: read one byte of `BUF`, format X (R72). -/
  | rdb (idx : Idx)
  /-- WRS idx, val: write one cell of `SYM`, format XV (R73). -/
  | wrs (idx : Idx) (val : Cell16)
  /-- RDS idx: read one cell of `SYM`, format X (R74). -/
  | rds (idx : Idx)
  /-- SETR reg, val: write an operand register, format XV (R75). -/
  | setr (reg : Idx) (val : Cell16)
  /-- GETR reg: read an operand register, format X (R76). -/
  | getr (reg : Idx)
  /-- GET11 idx: extract one symbol, format X (R80). -/
  | get11 (idx : Idx)
  /-- PUT11 idx, val: write one symbol, format XV (R82). -/
  | put11 (idx : Idx) (val : Cell16)
  /-- SPLIT: bytes to symbols, format Z (R86). -/
  | split
  /-- JOIN: symbols to bytes, format Z (R88). -/
  | join
  /-- SHL11: shift the ByteBuffer left by 11 bits, format Z (R84). -/
  | shl11
  /-- ENCLEN: count, descriptor and marker from the length, format Z (R101). -/
  | enclen
  /-- DECLEN: length from count, marker and descriptor, format Z (R102). -/
  | declen
deriving DecidableEq, Repr

end Sys2Proof
end

