-- ==== Sys2Proof/WellFormed.lean ====
section
/-! DEFINITION. Which command terms have a word: the must-be-zero field that an operand could violate (R53). -/

namespace Sys2Proof

/-- A command term is well formed when its operands meet its format's must-be-zero fields (R53). Every field is as wide
as its operand's type but `val` of WRB, whose high byte format XB fixes at zero (R57, log entry 10). Range checks
against the capacity and register numbers are no part of it (R55, R58). -/
def Instr.WellFormed : Instr → Bool
  | .nop => true
  | .wrb _ val => val.extractLsb' 8 8 == 0#8
  | .rdb _ => true
  | .wrs _ _ => true
  | .rds _ => true
  | .setr _ _ => true
  | .getr _ => true
  | .get11 _ => true
  | .put11 _ _ => true
  | .split => true
  | .join => true
  | .shl11 => true
  | .enclen => true
  | .declen => true

end Sys2Proof
end

