-- ==== Sys2Proof/Decode.lean ====
section
/-! DEFINITION. The opcode map, the decoder and the encoder (30_encoding.md R51 to R59). -/

namespace Sys2Proof

/-- The four formats, which differ in which fields must be zero (R53). -/
inductive Format where
  /-- Uses `op` only. -/
  | z
  /-- Uses `op` and `idx`. -/
  | x
  /-- Uses `op`, `idx` and `val[7:0]`. -/
  | xb
  /-- Uses `op`, `idx` and `val`. -/
  | xv
deriving DecidableEq, Repr

/-- The mask of a format: the bits that select the command (R53). -/
def Format.mask : Format → Word
  | .z => 0xFFFFFFFF#32
  | .x => 0xF000FFFF#32
  | .xb => 0xF000FF00#32
  | .xv => 0xF0000000#32

/-- How many operands a command of the format takes (R53). -/
def Format.operands : Format → Nat
  | .z => 0
  | .x => 1
  | .xb => 2
  | .xv => 2

/-- One row of the opcode map (R54). -/
structure Row where
  mnemonic : String
  format : Format
  /-- The value the selecting bits have. -/
  pattern : Word
  /-- The command, from the `idx` and `val` fields. -/
  make : Idx → Cell16 → Instr

/-- The opcode map of R54; opcodes 0xE and 0xF have no row. -/
def opcodeTable : List Row :=
  [ { mnemonic := "NOP", format := .z, pattern := 0x00000000#32, make := fun _ _ => .nop },
    { mnemonic := "WRB", format := .xb, pattern := 0x10000000#32, make := fun idx val => .wrb idx val },
    { mnemonic := "RDB", format := .x, pattern := 0x20000000#32, make := fun idx _ => .rdb idx },
    { mnemonic := "WRS", format := .xv, pattern := 0x30000000#32, make := fun idx val => .wrs idx val },
    { mnemonic := "RDS", format := .x, pattern := 0x40000000#32, make := fun idx _ => .rds idx },
    { mnemonic := "SETR", format := .xv, pattern := 0x50000000#32, make := fun idx val => .setr idx val },
    { mnemonic := "GETR", format := .x, pattern := 0x60000000#32, make := fun idx _ => .getr idx } ] ++
  [ { mnemonic := "GET11", format := .x, pattern := 0x70000000#32, make := fun idx _ => .get11 idx },
    { mnemonic := "PUT11", format := .xv, pattern := 0x80000000#32, make := fun idx val => .put11 idx val },
    { mnemonic := "SPLIT", format := .z, pattern := 0x90000000#32, make := fun _ _ => .split },
    { mnemonic := "JOIN", format := .z, pattern := 0xA0000000#32, make := fun _ _ => .join },
    { mnemonic := "SHL11", format := .z, pattern := 0xB0000000#32, make := fun _ _ => .shl11 },
    { mnemonic := "ENCLEN", format := .z, pattern := 0xC0000000#32, make := fun _ _ => .enclen },
    { mnemonic := "DECLEN", format := .z, pattern := 0xD0000000#32, make := fun _ _ => .declen } ]

/-- A word selects a row when its selecting bits have the row's value (R53). -/
def Row.selects (row : Row) (cmd : Word) : Bool := cmd &&& row.format.mask == row.pattern

/-- `op = cmd[31:28]` (R51). -/
def opField (cmd : Word) : BitVec 4 := cmd.extractLsb' 28 4

/-- `idx = cmd[27:16]` (R51). -/
def idxField (cmd : Word) : Idx := cmd.extractLsb' 16 12

/-- `val = cmd[15:0]` (R51). -/
def valField (cmd : Word) : Cell16 := cmd.extractLsb' 0 16

/-- Why a word matches no row. Both raise `IllegalCommand` (R56, R57). -/
inductive Illegal where
  /-- `op` is 0xE or 0xF (R56). -/
  | reservedOpcode
  /-- A must-be-zero field of the format of `op` is not zero (R57). -/
  | mustBeZero
deriving DecidableEq, Repr

/-- What the decoder answers. -/
inductive Decoded where
  | command (i : Instr)
  | illegal (why : Illegal)
deriving DecidableEq, Repr

/-- The name under which a word that matches no row is rejected. -/
def illegalReason (cmd : Word) : Illegal :=
  if 14 ≤ (opField cmd).toNat then .reservedOpcode else .mustBeZero

/-- The decode procedure of R55, total on all `2^32` words. -/
def decode (cmd : Word) : Decoded :=
  match opcodeTable.find? (fun row => row.selects cmd) with
  | some row => .command (row.make (idxField cmd) (valField cmd))
  | none => .illegal (illegalReason cmd)

/-- The word of an `op`, an `idx` and a `val` field (R51): `(op << 28) | (idx << 16) | val` (R60). -/
def assemble (op : BitVec 4) (idx : Idx) (val : Cell16) : Word := op ++ idx ++ val

/-- The word of a command, from the same map (R54); absent operands are 0 (R60). A term that is not well formed is
given the word its fields make, which the decoder refuses. -/
def encode : Instr → Word
  | .nop => assemble 0x0#4 0#12 0#16
  | .wrb idx val => assemble 0x1#4 idx val
  | .rdb idx => assemble 0x2#4 idx 0#16
  | .wrs idx val => assemble 0x3#4 idx val
  | .rds idx => assemble 0x4#4 idx 0#16
  | .setr reg val => assemble 0x5#4 reg val
  | .getr reg => assemble 0x6#4 reg 0#16
  | .get11 idx => assemble 0x7#4 idx 0#16
  | .put11 idx val => assemble 0x8#4 idx val
  | .split => assemble 0x9#4 0#12 0#16
  | .join => assemble 0xA#4 0#12 0#16
  | .shl11 => assemble 0xB#4 0#12 0#16
  | .enclen => assemble 0xC#4 0#12 0#16
  | .declen => assemble 0xD#4 0#12 0#16

/-- The command word whose low `nbits` bits are those of `w` and whose other bits are zero. A command is one 32-bit word
presented whole at the port (R50, R59), so no byte order enters (log entry 8). -/
def tableWord (nbits w : Nat) : Word := BitVec.ofNat 32 (w % 2 ^ nbits)

/-- The command the decoder reads from an opcode-table word, none where it refuses. -/
def decodeTableWord (nbits w : Nat) : Option Instr :=
  match decode (tableWord nbits w) with
  | .command i => some i
  | .illegal _ => none

end Sys2Proof
end

