-- ==== Sys2Proof/Config.lean ====
section
/-! DEFINITION. What an implementation fixes (the capacity) and the free values (memory contents after a reset). -/

namespace Sys2Proof

/-- The implementation parameters (00_scope.md section 4). Only `BMAX` is open (92 D4, 93 U3); `SMAX` is computed
from it (`Machine.smax`). Log entry 1: the machine holds its parameters in a field that no step changes, so that
every statement over all states is a statement over all capacities. -/
structure Config where
  /-- `BMAX`, the number of cells of `BUF`; legal values 1 .. 4096. -/
  bmax : Nat
deriving DecidableEq, Repr

/-- The spec's default capacity, `BMAX = 4096`. -/
def Config.default : Config := { bmax := 4096 }

/-- The legal capacities (00_scope.md section 4): `BMAX` may not exceed what a 12-bit index reaches. -/
abbrev Config.Legal (c : Config) : Prop := 1 ≤ c.bmax ∧ c.bmax ≤ 4096

/-- FREE VALUE (log entry 2). What `BUF[cell]` holds after the `reset`-th reset until it is written: R28 and 93 U1
say "an arbitrary 8-bit value", one draw per cell at each reset. It has no body, so nothing can be proved of it. -/
opaque Config.bufDraw (reset cell : Nat) : Byte

/-- FREE VALUE (log entry 2). What `SYM[cell]` holds after the `reset`-th reset until it is written: R28 and 93 U1
say "an arbitrary 16-bit value, possibly `> 2047`". -/
opaque Config.symDraw (reset cell : Nat) : Cell16

end Sys2Proof
end

