-- ==== Sys2Proof/Machine/State.lean ====
section
/-! DEFINITION. The machine's state as plain data (10_state.md R10), the host's events, the reset state (R28). -/

namespace Sys2Proof.Machine

/-- The ways a step could end in a machine stop. There is none: every fault of this hardware is latched in `FAULT` and
the step answers a next state (R135), after which the block ignores commands until reset (R136). See log entry 5. -/
inductive Fault where
deriving DecidableEq, Repr

/-- The ways a step could refuse an instruction. -/
inductive Refusal where
  /-- Raised by an arm of `exec` for an instruction that has no meaning yet; safe, since nothing is claimed of it.
  No arm raises it: every command is modelled. -/
  | notModelled (mnemonic : String)
deriving DecidableEq, Repr

/-- What the host does to the block (R156). Observing changes nothing and is no event. -/
inductive HostEvent where
  /-- Present one command word at the port (R50). -/
  | command (word : Word)
  /-- Assert reset (R150). -/
  | reset
deriving DecidableEq, Repr

/-- A cell array, as the list of the cells written since the last reset: pairs of index and value, indices strictly
rising. A cell that is not listed has not been written, and what it reads as is a free value (`State.byteAt`,
`State.symAt`; log entries 2 and 3). `Memory 8` is a list of `Host.Cell`. -/
abbrev Memory (width : Nat) := List (Nat × BitVec width)

/-- The architectural state (R10) and the model's own three fields. -/
structure State where
  /-- `BUF`, `BMAX` cells of 8 bits (R11). -/
  buf : Memory 8
  /-- `SYM`, `SMAX` cells of 16 bits (R12). -/
  sym : Memory 16
  /-- `N`, the byte length of the ByteBuffer (R15). -/
  n : BitVec 13
  /-- `K`, the number of symbols (R16). -/
  k : BitVec 12
  /-- `R`, the padding descriptor (R18). -/
  r : BitVec 4
  /-- `M`, the marker bit (R19). -/
  m : BitVec 1
  /-- `OUT`, the result of the last read-type command (R20). -/
  out : BitVec 16
  /-- `FAULT`, the latched cause, 0 while the block is running (R21). -/
  fault : BitVec 3
  /-- `FINFO`, the fault information (R22). -/
  finfo : BitVec 16
  /-- `FCMD`, the command word that faulted (R23). -/
  fcmd : Word
  /-- The model's own: the implementation parameters, which no step changes (log entry 1). -/
  cfg : Config
  /-- The model's own: how many resets there have been, read by the free memory contents (log entry 2). -/
  resets : Nat
  /-- The model's own: what the host does next, the first event first (log entry 4). -/
  host : List HostEvent
deriving DecidableEq, Repr

/-- The state after reset (R28): every register 0, no cell of either memory written. The capacity is the spec's default
(log entry 1); the counter starts at 0 and the host has nothing in store (DESIGN CHOICE, log entries 2 and 4). -/
def State.reset : State where
  buf := []
  sym := []
  n := 0
  k := 0
  r := 0
  m := 0
  out := 0
  fault := 0
  finfo := 0
  fcmd := 0
  cfg := Config.default
  resets := 0
  host := []

/-- `BUF` replaced. -/
def State.withBuf (s : State) (buf : Memory 8) : State := { s with buf := buf }

/-- `SYM` replaced. -/
def State.withSym (s : State) (sym : Memory 16) : State := { s with sym := sym }

/-- `N` replaced. -/
def State.withN (s : State) (n : BitVec 13) : State := { s with n := n }

/-- `K` replaced. -/
def State.withK (s : State) (k : BitVec 12) : State := { s with k := k }

/-- `R` replaced. -/
def State.withR (s : State) (r : BitVec 4) : State := { s with r := r }

/-- `M` replaced. -/
def State.withM (s : State) (m : BitVec 1) : State := { s with m := m }

/-- `OUT` replaced. -/
def State.withOut (s : State) (out : BitVec 16) : State := { s with out := out }

/-- The three fault registers replaced, together (R21 to R23). -/
def State.withFault (s : State) (fault : BitVec 3) (finfo : BitVec 16) (fcmd : Word) : State :=
  { s with fault := fault, finfo := finfo, fcmd := fcmd }

/-- What the host does next replaced. -/
def State.withHost (s : State) (host : List HostEvent) : State := { s with host := host }

end Sys2Proof.Machine
end

