-- ==== Sys2Proof/Machine/Flags.lean ====
section
/-! DEFINITION. The length and padding arithmetic: the symbol count, the descriptor `R`, the marker flag `M`, and the
decoder's length (42_padding.md R100 to R102). All of it is exact arithmetic on naturals (R96). -/

namespace Sys2Proof.Machine

/-- `ceil(8n/11)`, the number of symbols of an `n`-byte buffer (R3, R86, R101). -/
def symbolCount (n : Nat) : Nat := (8 * n + 10) / 11

/-- `8n mod 11`, the padding descriptor of an `n`-byte buffer (R100). -/
def descriptor (n : Nat) : Nat := 8 * n % 11

/-- The marker flag: whether the descriptor is not zero (R19, R101). -/
def marker (n : Nat) : BitVec 1 := if descriptor n ≠ 0 then 1#1 else 0#1

/-- `raw_bit_len = 11 * K` (R102). -/
def rawBitLen (k : Nat) : Nat := 11 * k

/-- The number of meaningful bits of `k` symbols: all of them without a marker; with one, the last symbol contributes
only `r` (R102). Used with `r` in `1 .. 10` and `k` not 0, where the subtraction cannot go below zero (R96). -/
def dataBits (k : Nat) (marked : Bool) (r : Nat) : Nat :=
  if marked then rawBitLen k - (11 - r) else rawBitLen k

/-- The byte length of `k` symbols: floor division in both branches (R102, 90 C3). -/
def byteLen (k : Nat) (marked : Bool) (r : Nat) : Nat := dataBits k marked r / 8

end Sys2Proof.Machine
end

