-- ==== Sys2Proof/Machine/Ops.lean ====
section
/-! DEFINITION. The named operations over memory and registers: cell reads and writes, the bit stream, taking a fault and
leaving the halted state. -/

namespace Sys2Proof.Machine

/-- The value written to cell `a`, if one was since the last reset. -/
def Memory.get? {w : Nat} (a : Nat) : Memory w → Option (BitVec w)
  | [] => none
  | (b, v) :: m => if a = b then some v else Memory.get? a m

/-- Write one cell, keeping the indices strictly rising. -/
def Memory.set {w : Nat} (a : Nat) (v : BitVec w) : Memory w → Memory w
  | [] => [(a, v)]
  | (b, u) :: m =>
    if a < b then (a, v) :: (b, u) :: m
    else if a = b then (a, v) :: m
    else (b, u) :: Memory.set a v m

/-- Write the cells `0 .. n-1`, cell `j` with `f j`, and keep the cells from `n` on. -/
def Memory.setPrefix {w : Nat} (n : Nat) (f : Nat → BitVec w) (m : Memory w) : Memory w :=
  (List.range n).map (fun j => (j, f j)) ++ m.filter (fun c => decide (n ≤ c.1))

/-- The indices are strictly rising, all above `lo`'s reach: each entry's index is at least `lo`. -/
def Memory.risingFrom {w : Nat} (lo : Nat) : Memory w → Bool
  | [] => true
  | (a, _) :: m => decide (lo ≤ a) && Memory.risingFrom (a + 1) m

/-- The canonical form of a cell array of `cells` cells: indices strictly rising and all below `cells`. No entry can
equal what an unlisted cell holds, since an unlisted cell holds no written value (log entry 3). -/
def Memory.wf {w : Nat} (cells : Nat) (m : Memory w) : Bool :=
  Memory.risingFrom 0 m && m.all (fun c => decide (c.1 < cells))

/-- `BMAX` (R24, 00_scope.md section 4). -/
def State.bmax (s : State) : Nat := s.cfg.bmax

/-- `SMAX = ceil(8*BMAX/11)` (00_scope.md section 4). -/
def State.smax (s : State) : Nat := symbolCount s.bmax

/-- `BUF[j]`: the value written since the last reset, or else the free value of that cell (R28, 93 U1, U2). -/
def State.byteAt (s : State) (j : Nat) : Byte := (s.buf.get? j).getD (Config.bufDraw s.resets j)

/-- `SYM[i]`: the value written since the last reset, or else the free value of that cell (R28, 93 U1, U2). -/
def State.symAt (s : State) (i : Nat) : Cell16 := (s.sym.get? i).getD (Config.symDraw s.resets i)

/-- `BUF[j] <- v`. -/
def State.writeByte (s : State) (j : Nat) (v : Byte) : State := s.withBuf (s.buf.set j v)

/-- `SYM[i] <- v`. -/
def State.writeSym (s : State) (i : Nat) (v : Cell16) : State := s.withSym (s.sym.set i v)

/-- `B(j) = BUF[j] if j < N else 0`, the zero-padded buffer read (00_scope.md section 6). -/
def State.padded (s : State) (j : Nat) : Byte := if j < s.n.toNat then s.byteAt j else 0#8

/-- Stream bit `p`: bit `7 - (p mod 8)` of `BUF[p div 8]` below `8N`, 0 from there on (R30, R31). -/
def State.streamBit (s : State) (p : Nat) : Bool :=
  if p < 8 * s.n.toNat then (s.byteAt (p / 8)).getLsbD (7 - p % 8) else false

/-- `q`, the first `BUF` cell that symbol `i` touches (R34). -/
def firstCell (i : Nat) : Nat := 11 * i / 8

/-- `s`, the bit_shift of symbol `i`: how many bits of its first cell precede it (R34). -/
def bitShift (i : Nat) : Nat := 11 * i % 8

/-- The 24-bit window over the cells `q`, `q+1`, `q+2` of symbol `i` (R80). -/
def State.window (s : State) (i : Nat) : Window :=
  s.padded (firstCell i) ++ s.padded (firstCell i + 1) ++ s.padded (firstCell i + 2)

/-- `get11(i)`: symbol `i` of the ByteBuffer, by the closed form of R80. -/
def State.symbol (s : State) (i : Nat) : Symbol := (s.window i >>> (13 - bitShift i)).setWidth 11

/-- `get11(i)` by the three cases of R81, from the cells `b0 b1 b2`, on 16-bit operands. -/
def State.symbolByCase (s : State) (i : Nat) : Symbol :=
  let b0 := (s.padded (firstCell i)).setWidth 16
  let b1 := (s.padded (firstCell i + 1)).setWidth 16
  let b2 := (s.padded (firstCell i + 2)).setWidth 16
  let sh := bitShift i
  if sh < 5 then (((b0 <<< 8 ||| b1) >>> (5 - sh)) &&& 0x7FF#16).setWidth 11
  else if sh = 5 then ((b0 &&& 0x07#16) <<< 8 ||| b1).setWidth 11
  else ((b0 &&& (0xFF#16 >>> sh)) <<< (3 + sh) ||| b1 <<< (sh - 5) ||| b2 >>> (13 - sh)).setWidth 11

/-- The part of a window that lies in its cell `t` (0, 1 or 2). -/
def windowCell (w : Window) (t : Nat) : Byte := w.extractLsb' (16 - 8 * t) 8

/-- `m24`, the field of symbol `i` in its window (R82). -/
def fieldMask (i : Nat) : Window := 0x7FF#24 <<< (13 - bitShift i)

/-- `d24`, the value of symbol `i` placed in its field (R82). -/
def fieldData (i : Nat) (v : Symbol) : Window := v.setWidth 24 <<< (13 - bitShift i)

/-- One turn of the loop of `put11` (R82): cell `q + t`, written only below `N` and only if the field has bits in it; the
field bits are replaced and the others kept. -/
def State.putCell (s : State) (i : Nat) (v : Symbol) (t : Nat) : State :=
  let j := firstCell i + t
  let mask := windowCell (fieldMask i) t
  if j < s.n.toNat ∧ mask ≠ 0#8 then
    s.writeByte j ((s.byteAt j &&& ~~~mask) ||| windowCell (fieldData i v) t)
  else s

/-- `put11(i, v)`: the masked read-modify-write of up to three cells (R82, R83). -/
def State.putSymbol (s : State) (i : Nat) (v : Symbol) : State :=
  ((s.putCell i v 0).putCell i v 1).putCell i v 2

/-- `BUF[j] <- 0` for every `j` below `N` (R88). -/
def State.zeroBuffer (s : State) : State := s.withBuf (s.buf.setPrefix s.n.toNat (fun _ => 0#8))

/-- `put11(i, SYM[i][10:0])` for the first `count` symbols, in order (R88). -/
def State.putSymbols (s : State) : Nat → State
  | 0 => s
  | count + 1 => (s.putSymbols count).putSymbol count ((s.symAt count).setWidth 11)

/-- Whether the cell value is a Symbol: at most 2047 (R12). -/
def isSymbol (v : Cell16) : Bool := decide (v.toNat ≤ 2047)

/-- The lowest index below `K` whose cell holds no Symbol (R88). -/
def State.badSymbol (s : State) : Option Nat :=
  (List.range s.k.toNat).find? (fun i => !isSymbol (s.symAt i))

/-- The causes of R131. -/
inductive Cause where
  /-- A value above 2047 reaches the regrouper: PUT11, JOIN. -/
  | invalidSymbol
  /-- A descriptor that no padding word stands for, or a descriptor with no symbol: DECLEN. -/
  | malformedPadding
  /-- A word that matches no row, or a register number that SETR or GETR has not: decode, SETR, GETR. -/
  | illegalCommand
  /-- An index, value or length beyond the capacity: WRB, RDB, WRS, RDS, SETR, DECLEN. -/
  | operandRange
deriving DecidableEq, Repr

/-- The code that `FAULT` takes (R131). -/
def Cause.code : Cause → BitVec 3
  | .invalidSymbol => 1#3
  | .malformedPadding => 2#3
  | .illegalCommand => 3#3
  | .operandRange => 4#3

/-- TAKING A FAULT, `raise C(info)` (R135): the three fault registers are written, `cmd` being the command word that
faulted, and nothing else changes. -/
def State.latch (s : State) (c : Cause) (info : BitVec 16) (cmd : Word) : State :=
  s.withFault c.code info cmd

/-- `raise C(info)` as the end of a command: the step goes on in the latched state (log entry 5). -/
def raise (c : Cause) (info : BitVec 16) (i : Instr) (s : State) : Host.Outcome State Fault Refusal :=
  .next (s.latch c info (encode i))

/-- LEAVING THE HALTED STATE: the effect of the reset event (R150, R138). Every register takes its reset value and the
memories hold new free values; the parameters stay, and what the host does next is the host's (log entries 2 and 9). -/
def State.takeReset (s : State) : State :=
  { State.reset with cfg := s.cfg, resets := s.resets + 1, host := s.host }

end Sys2Proof.Machine
end

