-- ==== Sys2Proof/Machine/Operands.lean ====
section
/-! DEFINITION. The operand registers and constants that SETR and GETR name by number (10_state.md R17). -/

namespace Sys2Proof.Machine

/-- The six register numbers that mean something (R17). -/
inductive OperandReg where
  /-- Number 0, the byte length. -/
  | n
  /-- Number 1, the symbol count. -/
  | k
  /-- Number 2, the padding descriptor. -/
  | r
  /-- Number 3, the marker bit. -/
  | m
  /-- Number 4, the constant `BMAX`. -/
  | capb
  /-- Number 5, the constant `SMAX`. -/
  | caps
deriving DecidableEq, Repr

/-- The register of a number; numbers from 6 on are reserved (R17). -/
def operandReg? (reg : Idx) : Option OperandReg :=
  match reg.toNat with
  | 0 => some .n
  | 1 => some .k
  | 2 => some .r
  | 3 => some .m
  | 4 => some .capb
  | 5 => some .caps
  | _ => none

/-- What GETR puts into `OUT` for each register, zero-extended to 16 bits (R76). -/
def State.operandValue (s : State) : OperandReg → BitVec 16
  | .n => s.n.setWidth 16
  | .k => s.k.setWidth 16
  | .r => s.r.setWidth 16
  | .m => s.m.setWidth 16
  | .capb => BitVec.ofNat 16 s.bmax
  | .caps => BitVec.ofNat 16 s.smax

/-- The largest value SETR accepts for each register; none for the read-only constants (R17, R75). -/
def State.operandMax? (s : State) : OperandReg → Option Nat
  | .n => some s.bmax
  | .k => some s.smax
  | .r => some 15
  | .m => some 1
  | .capb => none
  | .caps => none

/-- The register written with the low bits of a value (R75). A constant is not written: SETR raises before this. -/
def State.writeOperand (s : State) (val : Cell16) : OperandReg → State
  | .n => s.withN (val.setWidth 13)
  | .k => s.withK (val.setWidth 12)
  | .r => s.withR (val.setWidth 4)
  | .m => s.withM (val.setWidth 1)
  | .capb => s
  | .caps => s

end Sys2Proof.Machine
end

