-- ==== Sys2Proof/Machine/HostAccess.lean ====
section
/-! DEFINITION. The host access commands (40_host_access.md): NOP, WRB, RDB, WRS, RDS, SETR, GETR. -/

namespace Sys2Proof.Machine

/-- NOP (R70): no state changes at all. -/
def execNop (s : State) : Host.Outcome State Fault Refusal := .next s

/-- WRB idx, val (R71): `BUF[idx] <- val[7:0]`. -/
def execWrb (idx : Idx) (val : Cell16) (s : State) : Host.Outcome State Fault Refusal :=
  if s.bmax ≤ idx.toNat then raise .operandRange 0#16 (.wrb idx val) s
  else .next (s.writeByte idx.toNat (val.setWidth 8))

/-- RDB idx (R72): `OUT <- zext_16(BUF[idx])`. -/
def execRdb (idx : Idx) (s : State) : Host.Outcome State Fault Refusal :=
  if s.bmax ≤ idx.toNat then raise .operandRange 0#16 (.rdb idx) s
  else .next (s.withOut ((s.byteAt idx.toNat).setWidth 16))

/-- WRS idx, val (R73): `SYM[idx] <- val`, with no check that `val` is a Symbol. -/
def execWrs (idx : Idx) (val : Cell16) (s : State) : Host.Outcome State Fault Refusal :=
  if s.smax ≤ idx.toNat then raise .operandRange 0#16 (.wrs idx val) s
  else .next (s.writeSym idx.toNat val)

/-- RDS idx (R74): `OUT <- SYM[idx]`. -/
def execRds (idx : Idx) (s : State) : Host.Outcome State Fault Refusal :=
  if s.smax ≤ idx.toNat then raise .operandRange 0#16 (.rds idx) s
  else .next (s.withOut (s.symAt idx.toNat))

/-- SETR reg, val (R75): the register's range is checked, then it is written. -/
def execSetr (reg : Idx) (val : Cell16) (s : State) : Host.Outcome State Fault Refusal :=
  match operandReg? reg with
  | none => raise .illegalCommand 0#16 (.setr reg val) s
  | some x =>
    match s.operandMax? x with
    | none => raise .illegalCommand 0#16 (.setr reg val) s
    | some max =>
      if max < val.toNat then raise .operandRange 0#16 (.setr reg val) s
      else .next (s.writeOperand val x)

/-- GETR reg (R76): `OUT <- zext_16(x[reg])`. -/
def execGetr (reg : Idx) (s : State) : Host.Outcome State Fault Refusal :=
  match operandReg? reg with
  | none => raise .illegalCommand 0#16 (.getr reg) s
  | some x => .next (s.withOut (s.operandValue x))

end Sys2Proof.Machine
end

