-- ==== Sys2Proof/Machine/Padding.lean ====
section
/-! DEFINITION. The padding commands (42_padding.md): ENCLEN, DECLEN. -/

namespace Sys2Proof.Machine

/-- ENCLEN (R101): `K`, `R` and `M` from `N`. -/
def execEnclen (s : State) : Host.Outcome State Fault Refusal :=
  .next (((s.withK (BitVec.ofNat 12 (symbolCount s.n.toNat))).withR
    (BitVec.ofNat 4 (descriptor s.n.toNat))).withM (marker s.n.toNat))

/-- DECLEN (R102): the descriptor is checked when the marker is present, then the length against the capacity; `N` takes
the length and, without a marker, `R` is cleared. -/
def execDeclen (s : State) : Host.Outcome State Fault Refusal :=
  let marked := decide (s.m = 1#1)
  if marked ∧ (s.r.toNat < 1 ∨ 10 < s.r.toNat) then raise .malformedPadding (s.r.setWidth 16) .declen s
  else if marked ∧ s.k = 0#12 then raise .malformedPadding (s.r.setWidth 16) .declen s
  else if s.bmax < byteLen s.k.toNat marked s.r.toNat then raise .operandRange 0#16 .declen s
  else .next ((if marked then s else s.withR 0#4).withN
    (BitVec.ofNat 13 (byteLen s.k.toNat marked s.r.toNat)))

end Sys2Proof.Machine
end

