-- ==== Sys2Proof/Machine/Regroup.lean ====
section
/-! DEFINITION. The regrouping commands (41_bitgrouper.md): GET11, PUT11, SPLIT, JOIN, SHL11. -/

namespace Sys2Proof.Machine

/-- GET11 idx (R80): `OUT <- zext_16(get11(idx))`; total, with no fault. -/
def execGet11 (idx : Idx) (s : State) : Host.Outcome State Fault Refusal :=
  .next (s.withOut ((s.symbol idx.toNat).setWidth 16))

/-- PUT11 idx, val (R82): the value is checked before any cell is touched. -/
def execPut11 (idx : Idx) (val : Cell16) (s : State) : Host.Outcome State Fault Refusal :=
  if isSymbol val then .next (s.putSymbol idx.toNat (val.setWidth 11))
  else raise .invalidSymbol (idx.setWidth 16) (.put11 idx val) s

/-- SPLIT (R86): `SYM[i] <- zext_16(get11(i))` for every `i` below `ceil(8N/11)`, and `K` becomes that count. -/
def execSplit (s : State) : Host.Outcome State Fault Refusal :=
  let count := symbolCount s.n.toNat
  .next ((s.withSym (s.sym.setPrefix count (fun i => (s.symbol i).setWidth 16))).withK (BitVec.ofNat 12 count))

/-- JOIN (R88): the symbols are checked, the ByteBuffer is zeroed, the symbols are put. -/
def execJoin (s : State) : Host.Outcome State Fault Refusal :=
  match s.badSymbol with
  | some i => raise .invalidSymbol (BitVec.ofNat 16 i) .join s
  | none => .next (s.zeroBuffer.putSymbols s.k.toNat)

/-- SHL11 (R84): every cell below `N` at once, from the cells before the command. -/
def execShl11 (s : State) : Host.Outcome State Fault Refusal :=
  .next (s.withBuf (s.buf.setPrefix s.n.toNat
    (fun j => s.padded (j + 1) <<< 3 ||| s.padded (j + 2) >>> 5)))

end Sys2Proof.Machine
end

