-- ==== Sys2Proof/Machine/Dispatch.lean ====
section
/-! DEFINITION. One arm per command (30_encoding.md R54), each one call of its meaning. -/

namespace Sys2Proof.Machine

def exec (i : Instr) (s : State) : Host.Outcome State Fault Refusal :=
  match i with
  | .nop => Sys2Proof.Machine.execNop s
  | .wrb idx val => Sys2Proof.Machine.execWrb idx val s
  | .rdb idx => Sys2Proof.Machine.execRdb idx s
  | .wrs idx val => Sys2Proof.Machine.execWrs idx val s
  | .rds idx => Sys2Proof.Machine.execRds idx s
  | .setr reg val => Sys2Proof.Machine.execSetr reg val s
  | .getr reg => Sys2Proof.Machine.execGetr reg s
  | .get11 idx => Sys2Proof.Machine.execGet11 idx s
  | .put11 idx val => Sys2Proof.Machine.execPut11 idx val s
  | .split => Sys2Proof.Machine.execSplit s
  | .join => Sys2Proof.Machine.execJoin s
  | .shl11 => Sys2Proof.Machine.execShl11 s
  | .enclen => Sys2Proof.Machine.execEnclen s
  | .declen => Sys2Proof.Machine.execDeclen s

end Sys2Proof.Machine
end

