-- ==== Sys2Proof/Machine/Port.lean ====
section
/-! DEFINITION. The command port (30_encoding.md R50) and the host's two moves (70_reset_and_hazards.md R156). -/

namespace Sys2Proof.Machine

/-- One command word presented at the port (R50): ignored while the block is halted (R136); else decoded (R55) and run,
or `IllegalCommand` is raised with the word as it stands (R56, R57). -/
def present (cmd : Word) (s : State) : Host.Outcome State Fault Refusal :=
  if s.fault ≠ 0#3 then .next s
  else
    match decode cmd with
    | .command i => exec i s
    | .illegal _ => .next (s.latch .illegalCommand 0#16 cmd)

/-- One host event taken by the block (R156). -/
def takeEvent (e : HostEvent) (s : State) : Host.Outcome State Fault Refusal :=
  match e with
  | .command cmd => present cmd s
  | .reset => .next s.takeReset

/-- The host's next event is taken off and handed to the block. With none left the block is idle and its state stays as
it is (R141, R156; log entry 4). -/
def takeNextEvent (s : State) : Host.Outcome State Fault Refusal :=
  match s.host with
  | [] => .next s
  | e :: rest => takeEvent e (s.withHost rest)

/-- `cmd` as the host's very next move. -/
def State.presentNext (s : State) (cmd : Word) : State := s.withHost (.command cmd :: s.host)

end Sys2Proof.Machine
end

