-- ==== Sys2Proof/Machine/Step.lean ====
section
/-! DEFINITION. One step of the machine, and the placing of one command where the next step takes it. -/

namespace Sys2Proof.Machine

/-- One step: the host's next event (R50, R156). -/
def step (s : State) : Host.Outcome State Fault Refusal := takeNextEvent s

/-- `s` with the command word of the opcode table's bits `w` as the host's very next move: the block fetches nothing and
has no program memory (R13, R45), so a command comes to run by being presented (log entry 4). -/
def State.withFetchWord (s : State) (nbits w : Nat) : State := s.presentNext (tableWord nbits w)

end Sys2Proof.Machine
end

