-- ==== Sys2Proof/Machine/Pseudo.lean ====
section
/-! DEFINITION. The pseudo-commands (30_encoding.md R61) and the host's command sequences for one call
(43_codec_context.md R114, R115; 70_reset_and_hazards.md R152). -/

namespace Sys2Proof.Machine

/-- The four pseudo-commands (R61). -/
inductive Pseudo where
  /-- ENC: the block's part of `encode`. -/
  | enc
  /-- DEC: the block's part of `decode`. -/
  | dec
  /-- LOADB: the caller hands over a ByteBuffer. -/
  | loadb (bytes : List Byte)
  /-- LOADS: the caller hands over a symbol sequence. -/
  | loads (cells : List Cell16)
deriving DecidableEq, Repr

/-- WRB of each byte, the first at cell `j`. -/
def writeBytes (j : Nat) : List Byte → List Instr
  | [] => []
  | b :: bs => .wrb (BitVec.ofNat 12 j) (b.setWidth 16) :: writeBytes (j + 1) bs

/-- WRS of each value, the first at cell `i`. -/
def writeCells (i : Nat) : List Cell16 → List Instr
  | [] => []
  | v :: vs => .wrs (BitVec.ofNat 12 i) v :: writeCells (i + 1) vs

/-- The expansion of a pseudo-command, in the order of R61. DESIGN CHOICE (log entry 12, unsafe): for an operand list that
`Pseudo.wellFormed` refuses, R61 and the field widths of R51 give no expansion; here an index is then taken modulo 4096
and the count of SETR modulo 65536, so a list of 65536 operands begins with SETR of 0. -/
def Pseudo.expand : Pseudo → List Instr
  | .enc => [.enclen, .split]
  | .dec => [.declen, .join]
  | .loadb bytes => .setr 0#12 (BitVec.ofNat 16 bytes.length) :: writeBytes 0 bytes
  | .loads cells => .setr 1#12 (BitVec.ofNat 16 cells.length) :: writeCells 0 cells

/-- The operand lists an expansion can write out: every index must fit the 12-bit `idx` field (R51, log entry 12). -/
def Pseudo.wellFormed : Pseudo → Bool
  | .enc => true
  | .dec => true
  | .loadb bytes => decide (bytes.length ≤ 4096)
  | .loads cells => decide (cells.length ≤ 4096)

/-- The block's commands for one `encode` (R114 steps 1 and 2, R152 item 2). It means something only for a byte list the
block can hold; it does not apply `Pseudo.wellFormed`, and for longer lists it is the model's choice, as `Pseudo.expand`
says (DESIGN CHOICE, log entry 12). -/
def encodeCall (bytes : List Byte) : List Instr := (Pseudo.loadb bytes).expand ++ Pseudo.enc.expand

/-- The block's commands for one `decode` (R115 steps 2 to 6, R152 item 3): `descriptor` is what the host found after the
marker token, none without a marker. For a list of cells that `Pseudo.wellFormed` refuses it is the model's choice, as
`Pseudo.expand` says (DESIGN CHOICE, log entry 12). -/
def decodeCall (cells : List Cell16) (descriptor : Option (BitVec 4)) : List Instr :=
  (Pseudo.loads cells).expand ++
    (match descriptor with
     | none => [.setr 3#12 0#16]
     | some r => [.setr 3#12 1#16, .setr 2#12 (r.setWidth 16)]) ++
    Pseudo.dec.expand

end Sys2Proof.Machine
end

