-- ==== Sys2Proof/Machine/Assembler.lean ====
section
/-! DEFINITION. The spec's textual command syntax (30_encoding.md R60), one line at a time, as lists of characters. -/

namespace Sys2Proof.Machine

/-- A blank between words (log entry 11). -/
def isBlank (c : Char) : Bool := c == ' ' || c == '\t'

/-- A text without the blanks at its two ends. -/
def trim (cs : List Char) : List Char := ((cs.dropWhile isBlank).reverse.dropWhile isBlank).reverse

/-- The pieces of a text between commas, at least one. -/
def splitCommas : List Char → List (List Char)
  | [] => [[]]
  | c :: cs =>
    if c == ',' then [] :: splitCommas cs
    else
      match splitCommas cs with
      | [] => [[c]]
      | p :: ps => (c :: p) :: ps

/-- The value of one digit in a base up to 16, none if it is no such digit. -/
def digit? (base : Nat) (c : Char) : Option Nat :=
  let v :=
    if '0' ≤ c ∧ c ≤ '9' then c.toNat - '0'.toNat
    else if 'A' ≤ c ∧ c ≤ 'F' then c.toNat - 'A'.toNat + 10
    else if 'a' ≤ c ∧ c ≤ 'f' then c.toNat - 'a'.toNat + 10
    else 16
  if v < base then some v else none

/-- The number whose digits follow those that made `acc`. -/
def digits? (base : Nat) (acc : Nat) : List Char → Option Nat
  | [] => some acc
  | c :: cs =>
    match digit? base c with
    | none => none
    | some v => digits? base (acc * base + v) cs

/-- A number in decimal, `0x` hexadecimal or `0b` binary (R60). -/
def number? : List Char → Option Nat
  | [] => none
  | ['0', 'x'] => none
  | ['0', 'b'] => none
  | '0' :: 'x' :: ds => digits? 16 0 ds
  | '0' :: 'b' :: ds => digits? 2 0 ds
  | ds => digits? 10 0 ds

/-- The names that may stand for a register number in SETR and GETR (R60, R17). -/
def registerName? (cs : List Char) : Option Nat :=
  if cs = ['N'] then some 0
  else if cs = ['K'] then some 1
  else if cs = ['R'] then some 2
  else if cs = ['M'] then some 3
  else if cs = ['C', 'A', 'P', 'B'] then some 4
  else if cs = ['C', 'A', 'P', 'S'] then some 5
  else none

/-- Whether a row's first operand is a register number, which may be written by name (R60). -/
def namesRegister (row : Row) : Bool := row.mnemonic == "SETR" || row.mnemonic == "GETR"

/-- The first operand of a row: a number, or a register name where the row takes one. -/
def firstOperand? (row : Row) (cs : List Char) : Option Nat :=
  match number? cs with
  | some v => some v
  | none => if namesRegister row then registerName? cs else none

/-- The command of a row and its two operand values, absent operands being 0 (R60); none when a value does not fit its
field. -/
def commandOf? (row : Row) (idx val : Nat) : Option (List Instr) :=
  let i := row.make (BitVec.ofNat 12 idx) (BitVec.ofNat 16 val)
  if idx < 4096 ∧ val < 65536 ∧ i.WellFormed then some [i] else none

/-- A row's command from its operand texts; none when there are more than the format has. -/
def rowLine? (row : Row) (operands : List (List Char)) : Option (List Instr) :=
  if row.format.operands < operands.length then none
  else
    match operands with
    | [] => commandOf? row 0 0
    | a :: rest =>
      match firstOperand? row a with
      | none => none
      | some idx =>
        match rest with
        | [] => commandOf? row idx 0
        | b :: _ =>
          match number? b with
          | none => none
          | some val => commandOf? row idx val

/-- All the numbers of a list of operands below a bound, none if one is not. -/
def numbers? (bound : Nat) : List (List Char) → Option (List Nat)
  | [] => some []
  | cs :: rest =>
    match number? cs, numbers? bound rest with
    | some v, some vs => if v < bound then some (v :: vs) else none
    | _, _ => none

/-- The pseudo-command of a mnemonic and its operand texts (R61). -/
def pseudoLine? (mnemonic : List Char) (operands : List (List Char)) : Option Pseudo :=
  if mnemonic = ['E', 'N', 'C'] then (if operands = [] then some .enc else none)
  else if mnemonic = ['D', 'E', 'C'] then (if operands = [] then some .dec else none)
  else if mnemonic = ['L', 'O', 'A', 'D', 'B'] then
    (numbers? 256 operands).map (fun vs => .loadb (vs.map (BitVec.ofNat 8)))
  else if mnemonic = ['L', 'O', 'A', 'D', 'S'] then
    (numbers? 65536 operands).map (fun vs => .loads (vs.map (BitVec.ofNat 16)))
  else none

/-- The commands of one line (R60, R61): a comment runs from `;` to the end, an empty line has no command, and a line that
is none of the forms is refused. -/
def assembleLine? (line : List Char) : Option (List Instr) :=
  let body := trim (line.takeWhile (fun c => !(c == ';')))
  let mnemonic := body.takeWhile (fun c => !isBlank c)
  let tail := trim (body.drop mnemonic.length)
  let operands := if tail = [] then [] else (splitCommas tail).map trim
  if body = [] then some []
  else
    match opcodeTable.find? (fun row => row.mnemonic.toList == mnemonic) with
    | some row => rowLine? row operands
    | none =>
      match pseudoLine? mnemonic operands with
      | none => none
      | some p => if p.wellFormed then some p.expand else none

/-- The command words of one line. -/
def assembleWords? (line : String) : Option (List Word) :=
  (assembleLine? line.toList).map (fun is => is.map encode)

end Sys2Proof.Machine
end

