-- ==== Sys2Proof/Safety.lean ====
section
/-! DEFINITION. The terms that claims use: the invariant of reachable states (10_state.md R29), how a run ends (R155), when
a command faults (60_exceptions.md R131), the spec's value formulas, and the host's obligations (R104, R152, R153). -/

namespace Sys2Proof.Machine

/-- What holds in every state reachable from reset (R29): the lengths within the capacity, a legal cause code, no fault
information while running; and the memories in canonical form and inside their arrays. -/
abbrev StateInv (s : State) : Prop :=
  s.cfg.Legal ∧ s.n.toNat ≤ s.bmax ∧ s.k.toNat ≤ s.smax ∧ s.fault.toNat ≤ 4 ∧
    (s.fault = 0#3 → s.finfo = 0#16 ∧ s.fcmd = 0#32) ∧
    s.buf.wf s.bmax = true ∧ s.sym.wf s.smax = true

/-- The block is running, not halted (R140). -/
abbrev Running (s : State) : Prop := s.fault = 0#3

/-- A run ended well when no fault is latched in its end state (R155). -/
abbrev EndedWell (s : State) : Prop := s.fault = 0#3

/-- `B(j)` as a natural number (00_scope.md section 6). -/
def State.paddedNat (s : State) (j : Nat) : Nat := if j < s.n.toNat then (s.byteAt j).toNat else 0

/-- The value of `get11(i)` by the arithmetic of R80, on natural numbers. -/
def State.get11Value (s : State) (i : Nat) : Nat :=
  let o := 11 * i
  let q := o / 8
  let sh := o % 8
  let w := (s.paddedNat q <<< 16) ||| (s.paddedNat (q + 1) <<< 8) ||| s.paddedNat (q + 2)
  (w >>> (13 - sh)) &&& 0x7FF

/-- The value that cell `j` has after `put11(i, v)` by the arithmetic of R82, on natural numbers, `v` being the symbol's
value: the field's bits inside the cell are replaced. -/
def State.put11Value (s : State) (i v j : Nat) : Nat :=
  let o := 11 * i
  let q := o / 8
  let sh := o % 8
  let m := ((0x7FF <<< (13 - sh)) >>> (16 - 8 * (j - q))) &&& 0xFF
  let d := ((v <<< (13 - sh)) >>> (16 - 8 * (j - q))) &&& 0xFF
  if q ≤ j ∧ j ≤ q + 2 ∧ j < s.n.toNat then ((s.byteAt j).toNat &&& (0xFF - m)) ||| d
  else (s.byteAt j).toNat

/-- The length that DECLEN computes by the arithmetic of R102. -/
def State.declenValue (s : State) : Nat :=
  (if s.m = 1#1 then 11 * s.k.toNat - (11 - s.r.toNat) else 11 * s.k.toNat) / 8

/-- The conditions of R131 under which a decoded command raises a cause with an information value, in the priority of
R137. -/
def CommandFaults (i : Instr) (s : State) (c : Cause) (info : BitVec 16) : Prop :=
  match i with
  | .nop => False
  | .wrb idx _ => c = .operandRange ∧ info = 0#16 ∧ s.bmax ≤ idx.toNat
  | .rdb idx => c = .operandRange ∧ info = 0#16 ∧ s.bmax ≤ idx.toNat
  | .wrs idx _ => c = .operandRange ∧ info = 0#16 ∧ s.smax ≤ idx.toNat
  | .rds idx => c = .operandRange ∧ info = 0#16 ∧ s.smax ≤ idx.toNat
  | .setr reg val =>
    (c = .illegalCommand ∧ info = 0#16 ∧ 4 ≤ reg.toNat) ∨
      (c = .operandRange ∧ info = 0#16 ∧
        (reg.toNat = 0 ∧ s.bmax < val.toNat ∨ reg.toNat = 1 ∧ s.smax < val.toNat ∨
          reg.toNat = 2 ∧ 15 < val.toNat ∨ reg.toNat = 3 ∧ 1 < val.toNat))
  | .getr reg => c = .illegalCommand ∧ info = 0#16 ∧ 6 ≤ reg.toNat
  | .get11 _ => False
  | .put11 idx val => c = .invalidSymbol ∧ info = idx.setWidth 16 ∧ 2047 < val.toNat
  | .split => False
  | .join =>
    c = .invalidSymbol ∧ ∃ j, j < s.k.toNat ∧ info = BitVec.ofNat 16 j ∧ 2047 < (s.symAt j).toNat ∧
      ∀ l, l < j → (s.symAt l).toNat ≤ 2047
  | .shl11 => False
  | .enclen => False
  | .declen =>
    (c = .malformedPadding ∧ info = s.r.setWidth 16 ∧ s.m = 1#1 ∧
        (s.r.toNat < 1 ∨ 10 < s.r.toNat ∨ s.k = 0#12)) ∨
      (c = .operandRange ∧ info = 0#16 ∧
        ¬ (s.m = 1#1 ∧ (s.r.toNat < 1 ∨ 10 < s.r.toNat ∨ s.k = 0#12)) ∧ s.bmax < s.declenValue)

/-- The conditions of R131 for a command word: a word that matches no row raises `IllegalCommand`. -/
def WordFaults (cmd : Word) (s : State) (c : Cause) (info : BitVec 16) : Prop :=
  match decode cmd with
  | .command i => CommandFaults i s c info
  | .illegal _ => c = .illegalCommand ∧ info = 0#16

/-- A triple of a symbol count, a marker and a descriptor that some length gives under ENCLEN (R104), read with the
descriptor 0 when there is no marker, since that is what ENCLEN leaves. -/
def CanonicalTriple (k : Nat) (marked : Bool) (r : Nat) : Prop :=
  dataBits k marked r % 8 = 0 ∧ (if marked then 1 ≤ r ∧ r ≤ 10 ∧ 1 ≤ k else r = 0)

/-- Every `BUF` cell below `n` has been written since the last reset. -/
def State.bytesWritten (s : State) (n : Nat) : Bool := (List.range n).all (fun j => (s.buf.get? j).isSome)

/-- Every `SYM` cell below `k` has been written since the last reset. -/
def State.symbolsWritten (s : State) (k : Nat) : Bool := (List.range k).all (fun i => (s.sym.get? i).isSome)

/-- The `BUF` cells of symbol `i` that lie below `N` have been written since the last reset. -/
def State.fieldWritten (s : State) (i : Nat) : Bool :=
  (List.range 3).all (fun t =>
    decide (s.n.toNat ≤ firstCell i + t) || (s.buf.get? (firstCell i + t)).isSome)

/-- The host's obligation H1 (R152, R153): every memory cell the command reads has been written since the last reset, so
that its result does not depend on a free value. The block does not check it. -/
def InputsWritten (i : Instr) (s : State) : Bool :=
  match i with
  | .nop => true
  | .wrb _ _ => true
  | .rdb idx => (s.buf.get? idx.toNat).isSome
  | .wrs _ _ => true
  | .rds idx => (s.sym.get? idx.toNat).isSome
  | .setr _ _ => true
  | .getr _ => true
  | .get11 idx => s.fieldWritten idx.toNat
  | .put11 idx _ => s.fieldWritten idx.toNat
  | .split => s.bytesWritten s.n.toNat
  | .join => s.symbolsWritten s.k.toNat
  | .shl11 => s.bytesWritten s.n.toNat
  | .enclen => true
  | .declen => true

/-- `s` about to be presented the words of `cmds`, one a step, and nothing after them. -/
def State.given (s : State) (cmds : List Word) : State := s.withHost (cmds.map HostEvent.command)

/-- `count` steps in a row, as long as they answer next states. -/
def steps (s : State) : Nat → Host.Outcome State Fault Refusal
  | 0 => .next s
  | count + 1 =>
    match step s with
    | .next t => steps t count
    | .fault f => .fault f
    | .refused r => .refused r

/-- The outcome of presenting the words of `cmds` to `s`, one step each (R155). -/
def presentAll (s : State) (cmds : List Word) : Host.Outcome State Fault Refusal :=
  steps (s.given cmds) cmds.length

end Sys2Proof.Machine
end

