-- ==== Sys2Proof/Certificates/Slice0/Obligations.lean ====
section
/-! DEFINITION. The statements for the provers. Each docstring names the rule of spec/ it formalises; OBLIGATIONS.json lists
them. Frames are written as "the state after, with the fields the command writes put back, is the state before". -/

open Sys2Proof Sys2Proof.Machine

/-! ### Encoding and decoding -/

/-- 30_encoding.md R54, R55, R60: the decoder gives back every well-formed command, with every operand at every value. -/
def Obligations.DecodeOfEncodeIsTheCommand : Prop :=
  ∀ i : Instr, i.WellFormed = true → decode (encode i) = .command i

/-- 30_encoding.md R55: a word that decodes is the word of its command, so no bit of a word is dropped and no two words
have one meaning. -/
def Obligations.EncodeOfDecodeIsTheWord : Prop :=
  ∀ (cmd : Word) (i : Instr), decode cmd = .command i → i.WellFormed = true ∧ encode i = cmd

/-- 30_encoding.md R55: "At most one row matches any word". -/
def Obligations.AtMostOneRowSelectsAWord : Prop :=
  ∀ (cmd : Word) (row row' : Row), row ∈ opcodeTable → row' ∈ opcodeTable →
    row.selects cmd = true → row'.selects cmd = true → row = row'

/-- 30_encoding.md R56, R57: the words with a reserved opcode and those with a non-zero must-be-zero field latch
IllegalCommand (code 3), every other word is a command, and the all-zero word is NOP. -/
def Obligations.IllegalWordsLatchIllegalCommand : Prop :=
  decode 0#32 = .command .nop ∧
  ∀ cmd : Word,
    let op := (cmd.extractLsb' 28 4).toNat
    let bad :=
      (op = 14 ∨ op = 15) ∨
      ((op = 0 ∨ op = 9 ∨ op = 10 ∨ op = 11 ∨ op = 12 ∨ op = 13) ∧ cmd.extractLsb' 0 28 ≠ 0#28) ∨
      ((op = 2 ∨ op = 4 ∨ op = 6 ∨ op = 7) ∧ cmd.extractLsb' 0 16 ≠ 0#16) ∨
      (op = 1 ∧ cmd.extractLsb' 8 8 ≠ 0#8)
    (bad → ∀ (s : State) (rest : List HostEvent), s.host = .command cmd :: rest → s.fault = 0#3 →
      step s = .next { s with host := rest, fault := 3#3, finfo := 0#16, fcmd := cmd }) ∧
    (¬ bad → ∃ i, decode cmd = .command i)

/-- 30_encoding.md R51, R56, R60 and 95_test_vectors.md V12: six words written out in the spec decode to their commands and
one with a reserved opcode is refused. -/
def Obligations.SpecWordsDecodeToTheirCommands : Prop :=
  decode 0x800107FF#32 = .command (.put11 1#12 0x7FF#16) ∧
  decode 0x10000031#32 = .command (.wrb 0#12 0x31#16) ∧
  decode 0x5000000B#32 = .command (.setr 0#12 11#16) ∧
  decode 0x70070000#32 = .command (.get11 7#12) ∧
  decode 0xA0000000#32 = .command .join ∧
  decode 0x4BA20000#32 = .command (.rds 2978#12) ∧
  decode 0xF1234567#32 = .illegal .reservedOpcode

/-! ### The port, the halt and reset -/

/-- 30_encoding.md R50: while running, a step takes the host's next word off and runs the command it decodes to. -/
def Obligations.StepRunsTheDecodedCommand : Prop :=
  ∀ (s : State) (cmd : Word) (rest : List HostEvent) (i : Instr),
    s.host = .command cmd :: rest → s.fault = 0#3 → decode cmd = .command i →
    step s = exec i { s with host := rest }

/-- 60_exceptions.md R141 and the model's choice of log entry 4: with nothing presented the block is idle. -/
def Obligations.StepWithNothingPresentedIsIdle : Prop :=
  ∀ s : State, s.host = [] → step s = .next s

/-- 60_exceptions.md R136: a halted block ignores every word, however many are presented, so the fault registers keep
describing the first fault. -/
def Obligations.HaltedBlockIgnoresEveryWord : Prop :=
  ∀ (s : State) (cmds : List Word), s.fault ≠ 0#3 → presentAll s cmds = .next { s with host := [] }

/-- 70_reset_and_hazards.md R150 and log entries 2 and 9: the reset event clears every register, in every state, keeps the
parameters, and leaves each memory cell at the free value of the new reset. -/
def Obligations.ResetEventClearsRegisters : Prop :=
  ∀ (s : State) (rest : List HostEvent), s.host = .reset :: rest →
    ∃ t, step s = .next t ∧ t.n = 0#13 ∧ t.k = 0#12 ∧ t.r = 0#4 ∧ t.m = 0#1 ∧ t.out = 0#16 ∧ t.fault = 0#3 ∧
      t.finfo = 0#16 ∧ t.fcmd = 0#32 ∧ t.cfg = s.cfg ∧ t.host = rest ∧ t.resets = s.resets + 1 ∧
      (∀ j, t.byteAt j = Config.bufDraw t.resets j) ∧ (∀ i, t.symAt i = Config.symDraw t.resets i)

/-- 70_reset_and_hazards.md R155: when words presented to a running block leave it halted, the run went wrong at the word
in FCMD: the words before it left the block running, and the end state is the state just before it but for the fault
registers (and the host's list, which is the model's own: log entry 4). -/
def Obligations.WrongRunsEndAtTheirFaultingWord : Prop :=
  ∀ (s t : State) (cmds : List Word), s.fault = 0#3 → presentAll s cmds = .next t → t.fault ≠ 0#3 →
    ∃ before rest u, cmds = before ++ t.fcmd :: rest ∧ presentAll s before = .next u ∧ u.fault = 0#3 ∧
      { t with fault := u.fault, finfo := u.finfo, fcmd := u.fcmd } = u

/-- 60_exceptions.md R138: "The only way out of the halted state is reset". -/
def Obligations.OnlyResetLeavesTheHaltedState : Prop :=
  ∀ s t : State, s.fault ≠ 0#3 → step s = .next t → t.fault = 0#3 → ∃ rest, s.host = .reset :: rest

/-- 10_state.md R28: the registers after reset. The memories' cells are free values, whatever the model's counter is
(log entry 2); the capacity is the spec's default (log entry 1). -/
def Obligations.ResetStateHasTheListedRegisters : Prop :=
  State.reset.n = 0#13 ∧ State.reset.k = 0#12 ∧ State.reset.r = 0#4 ∧ State.reset.m = 0#1 ∧ State.reset.out = 0#16 ∧
  State.reset.fault = 0#3 ∧ State.reset.finfo = 0#16 ∧ State.reset.fcmd = 0#32 ∧
  State.reset.operandValue .capb = 4096#16 ∧ State.reset.operandValue .caps = 2979#16 ∧
  (∀ j, State.reset.byteAt j = Config.bufDraw State.reset.resets j) ∧
  (∀ i, State.reset.symAt i = Config.symDraw State.reset.resets i)

/-- 10_state.md R29: the reset state meets the invariant. -/
def Obligations.ResetStateMeetsTheInvariant : Prop := StateInv State.reset

/-- 10_state.md R29: every step, a command, a halted word or a reset event, keeps the invariant: lengths within the
capacity, a legal cause, no fault information while running, both memories in canonical form inside their arrays. -/
def Obligations.StepKeepsTheInvariant : Prop :=
  ∀ s t : State, StateInv s → step s = .next t → StateInv t

/-- 30_encoding.md R50, 70_reset_and_hazards.md R154: every step ends, in a next state. -/
def Obligations.EveryStepAnswersANextState : Prop := ∀ s : State, ∃ t, step s = .next t

/-- 70_reset_and_hazards.md R156: the host "cannot change `BMAX` or `SMAX`". -/
def Obligations.NoStepChangesTheParameters : Prop :=
  ∀ s t : State, step s = .next t → t.cfg = s.cfg ∧ t.bmax = s.bmax ∧ t.smax = s.smax

/-! ### Faults -/

/-- 60_exceptions.md R131: a running block that is presented a word faults exactly under the listed conditions, with the
listed code and information, the word in FCMD and nothing else changed; otherwise the fault registers stay. -/
def Obligations.WordsFaultExactlyAsListed : Prop :=
  (Cause.invalidSymbol.code = 1#3 ∧ Cause.malformedPadding.code = 2#3 ∧ Cause.illegalCommand.code = 3#3 ∧
    Cause.operandRange.code = 4#3) ∧
  ∀ (s : State) (cmd : Word), s.fault = 0#3 →
    (∀ c info, WordFaults cmd s c info →
      present cmd s = .next { s with fault := c.code, finfo := info, fcmd := cmd }) ∧
    ((∀ c info, ¬ WordFaults cmd s c info) →
      ∃ t, present cmd s = .next t ∧ t.fault = 0#3 ∧ t.finfo = s.finfo ∧ t.fcmd = s.fcmd)

/-- 60_exceptions.md R135: a fault writes FAULT, FINFO and FCMD, the last with the word presented, and nothing else. -/
def Obligations.FaultsArePrecise : Prop :=
  ∀ (s t : State) (cmd : Word) (rest : List HostEvent),
    s.host = .command cmd :: rest → s.fault = 0#3 → step s = .next t → t.fault ≠ 0#3 →
    ∃ code info, 1 ≤ code.toNat ∧ code.toNat ≤ 4 ∧
      t = { s with host := rest, fault := code, finfo := info, fcmd := cmd }

/-! ### Which command touches what -/

/-- 10_state.md R20: OUT is written only by RDB, RDS, GETR and GET11, with the value named, by no command that faults, and
no command reads it. -/
def Obligations.OutIsWrittenOnlyByReadCommands : Prop :=
  ∀ (i : Instr) (s t : State), exec i s = .next t →
    (t.out = s.out ∨ (∃ idx, i = .rdb idx ∧ t.out = (s.byteAt idx.toNat).setWidth 16) ∨
      (∃ idx, i = .rds idx ∧ t.out = s.symAt idx.toNat) ∨
      (∃ reg x, i = .getr reg ∧ operandReg? reg = some x ∧ t.out = s.operandValue x) ∨
      (∃ idx, i = .get11 idx ∧ t.out = (s.symbol idx.toNat).setWidth 16)) ∧
    (∀ c info, CommandFaults i s c info → t.out = s.out) ∧
    (∀ v, ∃ w, exec i { s with out := v } = .next { t with out := w })

/-- 10_state.md R15, R16, R18, R19, R25: the commands that can change N, K, R and M. -/
def Obligations.OperandRegistersHaveListedWriters : Prop :=
  ∀ (i : Instr) (s t : State), exec i s = .next t →
    (t.n = s.n ∨ (∃ val, i = .setr 0#12 val) ∨ i = .declen) ∧
    (t.k = s.k ∨ (∃ val, i = .setr 1#12 val) ∨ i = .split ∨ i = .enclen) ∧
    (t.r = s.r ∨ (∃ val, i = .setr 2#12 val) ∨ i = .enclen ∨ (i = .declen ∧ s.m = 0#1 ∧ t.r = 0#4)) ∧
    (t.m = s.m ∨ (∃ val, i = .setr 3#12 val) ∨ i = .enclen)

/-- 10_state.md R11 and section 10: which command can change which memory cell. -/
def Obligations.MemoryCellsHaveListedWriters : Prop :=
  ∀ (i : Instr) (s t : State), exec i s = .next t →
    (∀ j, t.byteAt j = s.byteAt j ∨ (∃ idx val, i = .wrb idx val ∧ idx.toNat = j) ∨
      (j < s.n.toNat ∧ (i = .join ∨ i = .shl11 ∨
        ∃ idx val, i = .put11 idx val ∧ 11 * idx.toNat / 8 ≤ j ∧ j ≤ 11 * idx.toNat / 8 + 2))) ∧
    (∀ j, t.symAt j = s.symAt j ∨ (∃ idx val, i = .wrs idx val ∧ idx.toNat = j) ∨
      (i = .split ∧ j < (8 * s.n.toNat + 10) / 11))

/-! ### Host access commands -/

/-- 40_host_access.md R70: NOP changes nothing, and only the all-zero word with opcode 0 is NOP. -/
def Obligations.NopChangesNothing : Prop :=
  (∀ s : State, exec .nop s = .next s) ∧
  decode 0x00000000#32 = .command .nop ∧
  (∀ cmd : Word, cmd.extractLsb' 28 4 = 0#4 → cmd ≠ 0#32 → ∃ why, decode cmd = .illegal why)

/-- 40_host_access.md R71: one byte is written below the capacity; at or beyond it the command faults. -/
def Obligations.WrbWritesOneByte : Prop :=
  ∀ (s : State) (idx : Idx) (b : Byte),
    let word : Word := 0x10000000#32 ||| (idx.setWidth 32 <<< 16) ||| b.setWidth 32
    let i : Instr := .wrb idx (b.setWidth 16)
    decode word = .command i ∧
    (∀ high : Byte, high ≠ 0#8 → ∃ why, decode (word ||| (high.setWidth 32 <<< 8)) = .illegal why) ∧
    (s.bmax ≤ idx.toNat → exec i s = .next { s with fault := 4#3, finfo := 0#16, fcmd := word }) ∧
    (idx.toNat < s.bmax → ∃ t, exec i s = .next t ∧ { t with buf := s.buf } = s ∧
      ∀ j, t.byteAt j = if j = idx.toNat then b else s.byteAt j)

/-- 40_host_access.md R72. A cell that nothing has written reads its free value (log entry 2). -/
def Obligations.RdbReadsOneByte : Prop :=
  ∀ (s : State) (idx : Idx),
    let word : Word := 0x20000000#32 ||| (idx.setWidth 32 <<< 16)
    decode word = .command (.rdb idx) ∧
    (s.bmax ≤ idx.toNat → exec (.rdb idx) s = .next { s with fault := 4#3, finfo := 0#16, fcmd := word }) ∧
    (idx.toNat < s.bmax → exec (.rdb idx) s = .next { s with out := (s.byteAt idx.toNat).setWidth 16 })

/-- 40_host_access.md R73: every 16-bit value is stored, a value above 2047 too. -/
def Obligations.WrsWritesOneCell : Prop :=
  ∀ (s : State) (idx : Idx) (val : Cell16),
    let word : Word := 0x30000000#32 ||| (idx.setWidth 32 <<< 16) ||| val.setWidth 32
    decode word = .command (.wrs idx val) ∧
    (s.smax ≤ idx.toNat → exec (.wrs idx val) s = .next { s with fault := 4#3, finfo := 0#16, fcmd := word }) ∧
    (idx.toNat < s.smax → ∃ t, exec (.wrs idx val) s = .next t ∧ { t with sym := s.sym } = s ∧
      ∀ j, t.symAt j = if j = idx.toNat then val else s.symAt j)

/-- 40_host_access.md R74. A cell that nothing has written reads its free value (log entry 2). -/
def Obligations.RdsReadsOneCell : Prop :=
  ∀ (s : State) (idx : Idx),
    let word : Word := 0x40000000#32 ||| (idx.setWidth 32 <<< 16)
    decode word = .command (.rds idx) ∧
    (s.smax ≤ idx.toNat → exec (.rds idx) s = .next { s with fault := 4#3, finfo := 0#16, fcmd := word }) ∧
    (idx.toNat < s.smax → exec (.rds idx) s = .next { s with out := s.symAt idx.toNat })

/-- 40_host_access.md R75, 30_encoding.md R58: each writable register with its range, and the numbers that are none. The
capacity is a legal one (00_scope.md section 4), so that a value in range fits its register. -/
def Obligations.SetrWritesTheNamedRegister : Prop :=
  ∀ (s : State) (reg : Idx) (val : Cell16), s.cfg.Legal →
    let word : Word := 0x50000000#32 ||| (reg.setWidth 32 <<< 16) ||| val.setWidth 32
    let i : Instr := .setr reg val
    decode word = .command i ∧
    (reg.toNat = 0 → val.toNat ≤ s.bmax →
      ∃ t, exec i s = .next t ∧ { t with n := s.n } = s ∧ t.n.toNat = val.toNat) ∧
    (reg.toNat = 1 → val.toNat ≤ s.smax →
      ∃ t, exec i s = .next t ∧ { t with k := s.k } = s ∧ t.k.toNat = val.toNat) ∧
    (reg.toNat = 2 → val.toNat ≤ 15 →
      ∃ t, exec i s = .next t ∧ { t with r := s.r } = s ∧ t.r.toNat = val.toNat) ∧
    (reg.toNat = 3 → val.toNat ≤ 1 →
      ∃ t, exec i s = .next t ∧ { t with m := s.m } = s ∧ t.m.toNat = val.toNat) ∧
    (reg.toNat = 0 ∧ s.bmax < val.toNat ∨ reg.toNat = 1 ∧ s.smax < val.toNat ∨
        reg.toNat = 2 ∧ 15 < val.toNat ∨ reg.toNat = 3 ∧ 1 < val.toNat →
      exec i s = .next { s with fault := 4#3, finfo := 0#16, fcmd := word }) ∧
    (4 ≤ reg.toNat → exec i s = .next { s with fault := 3#3, finfo := 0#16, fcmd := word })

/-- 40_host_access.md R76, 10_state.md R24, 30_encoding.md R58. -/
def Obligations.GetrReadsTheNamedRegister : Prop :=
  ∀ (s : State) (reg : Idx),
    let word : Word := 0x60000000#32 ||| (reg.setWidth 32 <<< 16)
    let i : Instr := .getr reg
    decode word = .command i ∧
    (reg.toNat = 0 → exec i s = .next { s with out := s.n.setWidth 16 }) ∧
    (reg.toNat = 1 → exec i s = .next { s with out := s.k.setWidth 16 }) ∧
    (reg.toNat = 2 → exec i s = .next { s with out := s.r.setWidth 16 }) ∧
    (reg.toNat = 3 → exec i s = .next { s with out := s.m.setWidth 16 }) ∧
    (reg.toNat = 4 → exec i s = .next { s with out := BitVec.ofNat 16 s.cfg.bmax }) ∧
    (reg.toNat = 5 → exec i s = .next { s with out := BitVec.ofNat 16 ((8 * s.cfg.bmax + 10) / 11) }) ∧
    (6 ≤ reg.toNat → exec i s = .next { s with fault := 3#3, finfo := 0#16, fcmd := word })

/-- 20_memory.md R42: what WRB, WRS and SETR have written is what RDB, RDS and GETR then read, and what they have not
written reads as before. -/
def Obligations.ReadsReturnTheLatestWrite : Prop :=
  (∀ (s : State) (idx j : Idx) (b : Byte), idx.toNat < s.bmax → j.toNat < s.bmax →
    ∃ t u, exec (.wrb idx (b.setWidth 16)) s = .next t ∧ exec (.rdb j) t = .next u ∧
      u.out = if j = idx then b.setWidth 16 else (s.byteAt j.toNat).setWidth 16) ∧
  (∀ (s : State) (idx j : Idx) (val : Cell16), idx.toNat < s.smax → j.toNat < s.smax →
    ∃ t u, exec (.wrs idx val) s = .next t ∧ exec (.rds j) t = .next u ∧
      u.out = if j = idx then val else s.symAt j.toNat) ∧
  (∀ (s t : State) (reg : Idx) (val : Cell16), s.cfg.Legal → s.fault = 0#3 → exec (.setr reg val) s = .next t →
    t.fault = 0#3 → exec (.getr reg) t = .next { t with out := val } ∧
      ∀ reg' x, operandReg? reg' = some x → reg' ≠ reg →
        exec (.getr reg') t = .next { t with out := s.operandValue x })

/-! ### Regrouping commands -/

/-- 41_bitgrouper.md R80: GET11 by the arithmetic of the rule, for every index. -/
def Obligations.Get11ExtractsTheWindowField : Prop :=
  ∀ (s : State) (idx : Idx),
    decode (0x70000000#32 ||| (idx.setWidth 32 <<< 16)) = .command (.get11 idx) ∧
    exec (.get11 idx) s = .next { s with out := BitVec.ofNat 16 (s.get11Value idx.toNat) } ∧
    s.get11Value idx.toNat ≤ 2047 ∧
    ((8 * s.n.toNat + 10) / 11 ≤ idx.toNat → s.get11Value idx.toNat = 0)

/-- 41_bitgrouper.md R81: the three-case form, equal to R80 for every input. -/
def Obligations.ThreeCaseFormEqualsClosedForm : Prop :=
  ∀ (s : State) (i : Nat), (s.symbolByCase i).toNat = s.get11Value i ∧ s.symbolByCase i = s.symbol i

/-- 20_memory.md R32: the value GET11 delivers is the sum of the 11 stream bits from `11*i` on, the first with weight
1024. -/
def Obligations.SymbolIsElevenStreamBits : Prop :=
  ∀ (s : State) (idx : Idx), ∃ t, exec (.get11 idx) s = .next t ∧
    t.out.toNat =
      ((List.range 11).map (fun b => if s.streamBit (11 * idx.toNat + b) then 2 ^ (10 - b) else 0)).sum

/-- 41_bitgrouper.md R82: PUT11 by the arithmetic of the rule, cell by cell, and its fault. -/
def Obligations.Put11ReplacesTheField : Prop :=
  ∀ (s : State) (idx : Idx) (val : Cell16),
    let word : Word := 0x80000000#32 ||| (idx.setWidth 32 <<< 16) ||| val.setWidth 32
    decode word = .command (.put11 idx val) ∧
    (2047 < val.toNat →
      exec (.put11 idx val) s = .next { s with fault := 1#3, finfo := idx.setWidth 16, fcmd := word }) ∧
    (val.toNat ≤ 2047 → ∃ t, exec (.put11 idx val) s = .next t ∧ { t with buf := s.buf } = s ∧
      ∀ j, (t.byteAt j).toNat = s.put11Value idx.toNat val.toNat j)

/-- 20_memory.md R39, 41_bitgrouper.md R83: PUT11 on the bit stream. The field's bits below `8N` are the symbol's, every
other bit is kept, the bits from `8N` on are dropped with no fault and no check, so values that differ only there give
the same buffer. -/
def Obligations.Put11KeepsNeighboursAndDropsTheTail : Prop :=
  ∀ (s : State) (idx : Idx) (val : Cell16), val.toNat ≤ 2047 →
    ∃ t, exec (.put11 idx val) s = .next t ∧ { t with buf := s.buf } = s ∧
      (∀ p, p < 8 * s.n.toNat → t.streamBit p =
        if 11 * idx.toNat ≤ p ∧ p ≤ 11 * idx.toNat + 10 then val.getLsbD (10 - (p - 11 * idx.toNat))
        else s.streamBit p) ∧
      (∀ j, s.n.toNat ≤ j → t.byteAt j = s.byteAt j) ∧
      (∀ val' : Cell16, val'.toNat ≤ 2047 →
        (∀ b, b < 11 → 11 * idx.toNat + b < 8 * s.n.toNat → val'.getLsbD (10 - b) = val.getLsbD (10 - b)) →
        ∃ t', exec (.put11 idx val') s = .next t' ∧ ∀ j, t'.byteAt j = t.byteAt j)

/-- 41_bitgrouper.md R82 (e): after PUT11 with its field inside the ByteBuffer, GET11 of the same index delivers the value,
and every other symbol is as before. -/
def Obligations.GetAfterPutReturnsTheSymbol : Prop :=
  ∀ (s : State) (idx : Idx) (val : Cell16), val.toNat ≤ 2047 →
    ∃ t, exec (.put11 idx val) s = .next t ∧
      (11 * idx.toNat + 11 ≤ 8 * s.n.toNat → exec (.get11 idx) t = .next { t with out := val }) ∧
      (∀ i, i ≠ idx.toNat → t.get11Value i = s.get11Value i)

/-- 41_bitgrouper.md R84: SHL11 cell by cell from the cells before it, and on the bit stream. -/
def Obligations.Shl11ShiftsTheBuffer : Prop :=
  decode 0xB0000000#32 = .command .shl11 ∧
  ∀ s : State, ∃ t, exec .shl11 s = .next t ∧ { t with buf := s.buf } = s ∧
    (∀ j, j < s.n.toNat →
      (t.byteAt j).toNat = ((s.paddedNat (j + 1) <<< 3) ||| (s.paddedNat (j + 2) >>> 5)) &&& 0xFF) ∧
    (∀ j, s.n.toNat ≤ j → t.byteAt j = s.byteAt j) ∧
    (∀ p, p < 8 * s.n.toNat → t.streamBit p = s.streamBit (p + 11))

/-- 41_bitgrouper.md R85: `get11(i)` of a buffer is `get11(0)` after `i` SHL11 commands. -/
def Obligations.ShiftingBringsEachSymbolToTheFront : Prop :=
  ∀ (s : State) (i : Nat), s.fault = 0#3 →
    ∃ t, presentAll s (List.replicate i 0xB0000000#32) = .next t ∧ t.get11Value 0 = s.get11Value i

/-- 41_bitgrouper.md R86: SPLIT writes the symbols and their count. The invariant of reachable states gives `N <= BMAX`. -/
def Obligations.SplitWritesTheSymbols : Prop :=
  decode 0x90000000#32 = .command .split ∧
  ∀ s : State, StateInv s → ∃ t, exec .split s = .next t ∧ { t with sym := s.sym, k := s.k } = s ∧
    t.k.toNat = (8 * s.n.toNat + 10) / 11 ∧ t.k.toNat ≤ s.smax ∧
    (∀ i, i < (8 * s.n.toNat + 10) / 11 → t.symAt i = BitVec.ofNat 16 (s.get11Value i)) ∧
    (∀ i, (8 * s.n.toNat + 10) / 11 ≤ i → t.symAt i = s.symAt i)

/-- 41_bitgrouper.md R87: the laws of SPLIT: count, symbol bound, empty buffer, bit identity, shared counts. -/
def Obligations.SplitLaws : Prop :=
  ∀ s : State, StateInv s → ∃ t, exec .split s = .next t ∧
    t.k.toNat = (8 * s.n.toNat + 10) / 11 ∧
    (∀ i, i < t.k.toNat → (t.symAt i).toNat ≤ 2047) ∧
    (s.n = 0#13 → t.k = 0#12) ∧
    (∀ p, p < 11 * t.k.toNat → (t.symAt (p / 11)).getLsbD (10 - p % 11) = s.streamBit p) ∧
    ((s.n = 3#13 ∨ s.n = 4#13) → t.k = 3#12) ∧ ((s.n = 7#13 ∨ s.n = 8#13) → t.k = 6#12) ∧
    ((s.n = 10#13 ∨ s.n = 11#13) → t.k = 8#12)

/-- 41_bitgrouper.md R88: JOIN's check, with the lowest offending index, and its result on the bit stream. -/
def Obligations.JoinWritesTheBytes : Prop :=
  decode 0xA0000000#32 = .command .join ∧
  ∀ s : State,
    (∀ i, i < s.k.toNat → 2047 < (s.symAt i).toNat → (∀ l, l < i → (s.symAt l).toNat ≤ 2047) →
      exec .join s = .next { s with fault := 1#3, finfo := BitVec.ofNat 16 i, fcmd := 0xA0000000#32 }) ∧
    ((∀ i, i < s.k.toNat → (s.symAt i).toNat ≤ 2047) →
      ∃ t, exec .join s = .next t ∧ { t with buf := s.buf } = s ∧
        (∀ p, p < 8 * s.n.toNat → t.streamBit p =
          if p / 11 < s.k.toNat then (s.symAt (p / 11)).getLsbD (10 - p % 11) else false) ∧
        (∀ j, s.n.toNat ≤ j → t.byteAt j = s.byteAt j))

/-- 41_bitgrouper.md R89 (a): JOIN undoes SPLIT, the BitGrouper half of the source's round trip. -/
def Obligations.JoinUndoesSplit : Prop :=
  ∀ s : State, StateInv s → ∃ t u, exec .split s = .next t ∧ exec .join t = .next u ∧
    u.n = s.n ∧ u.fault = s.fault ∧ ∀ j, u.byteAt j = s.byteAt j

/-- 41_bitgrouper.md R89 (b), first half: after JOIN, symbol `i` is `SYM[i]` with the bits from `8N` on cleared. -/
def Obligations.SymbolsAfterJoin : Prop :=
  ∀ s : State, (∀ i, i < s.k.toNat → (s.symAt i).toNat ≤ 2047) →
    ∃ t, exec .join s = .next t ∧ ∀ i, i < s.k.toNat → ∀ b, b < 11 →
      (t.get11Value i).testBit (10 - b) =
        if 11 * i + b < 8 * s.n.toNat then (s.symAt i).getLsbD (10 - b) else false

/-- 41_bitgrouper.md R89 (b), second half: SPLIT after JOIN reproduces the symbols exactly when `K = ceil(8N/11)` and the
`11K - 8N` low bits of the last symbol are 0. -/
def Obligations.SplitAfterJoinReproducesExactly : Prop :=
  ∀ s : State, StateInv s → (∀ i, i < s.k.toNat → (s.symAt i).toNat ≤ 2047) →
    ∃ t u, exec .join s = .next t ∧ exec .split t = .next u ∧
      ((u.k = s.k ∧ ∀ i, i < s.k.toNat → u.symAt i = s.symAt i) ↔
        (s.k.toNat = (8 * s.n.toNat + 10) / 11 ∧
          (1 ≤ s.k.toNat → (s.symAt (s.k.toNat - 1)).toNat % 2 ^ (11 * s.k.toNat - 8 * s.n.toNat) = 0)))

/-- 20_memory.md R36: the alignment repeats every 8 symbols and 11 bytes; which symbols take three cells and which fill
their last cell exactly. -/
def Obligations.AlignmentRepeatsEveryEightSymbols : Prop :=
  ∀ i : Nat,
    bitShift i = [0, 3, 6, 1, 4, 7, 2, 5].getD (i % 8) 0 ∧
    firstCell i = 11 * (i / 8) + [0, 1, 2, 4, 5, 6, 8, 9].getD (i % 8) 0 ∧
    (5 < bitShift i ↔ i % 8 = 2 ∨ i % 8 = 5) ∧ (bitShift i = 5 ↔ i % 8 = 7)

/-- 41_bitgrouper.md R82, its table of cell masks, one row per bit_shift. -/
def Obligations.FieldMasksAreTheListedOnes : Prop :=
  ∀ i : Nat,
    (bitShift i = 0 → [0, 1, 2].map (windowCell (fieldMask i)) = [0xFF#8, 0xE0#8, 0x00#8]) ∧
    (bitShift i = 1 → [0, 1, 2].map (windowCell (fieldMask i)) = [0x7F#8, 0xF0#8, 0x00#8]) ∧
    (bitShift i = 2 → [0, 1, 2].map (windowCell (fieldMask i)) = [0x3F#8, 0xF8#8, 0x00#8]) ∧
    (bitShift i = 3 → [0, 1, 2].map (windowCell (fieldMask i)) = [0x1F#8, 0xFC#8, 0x00#8]) ∧
    (bitShift i = 4 → [0, 1, 2].map (windowCell (fieldMask i)) = [0x0F#8, 0xFE#8, 0x00#8]) ∧
    (bitShift i = 5 → [0, 1, 2].map (windowCell (fieldMask i)) = [0x07#8, 0xFF#8, 0x00#8]) ∧
    (bitShift i = 6 → [0, 1, 2].map (windowCell (fieldMask i)) = [0x03#8, 0xFF#8, 0x80#8]) ∧
    (bitShift i = 7 → [0, 1, 2].map (windowCell (fieldMask i)) = [0x01#8, 0xFF#8, 0xC0#8])

/-! ### Padding commands -/

/-- 42_padding.md R101: ENCLEN, and its order with SPLIT does not matter. The invariant of reachable states gives
`N <= BMAX`. -/
def Obligations.EnclenComputesCountDescriptorMarker : Prop :=
  decode 0xC0000000#32 = .command .enclen ∧
  ∀ s : State, StateInv s → ∃ t, exec .enclen s = .next t ∧ { t with k := s.k, r := s.r, m := s.m } = s ∧
    t.k.toNat = (8 * s.n.toNat + 10) / 11 ∧ t.r.toNat = 8 * s.n.toNat % 11 ∧
    (t.m = 1#1 ↔ 8 * s.n.toNat % 11 ≠ 0) ∧
    ∃ t' u u', exec .split t = .next t' ∧ exec .split s = .next u ∧ exec .enclen u = .next u' ∧ t' = u'

/-- 42_padding.md R102: DECLEN, its faults in their order and its result. The capacity is a legal one. -/
def Obligations.DeclenComputesTheLength : Prop :=
  decode 0xD0000000#32 = .command .declen ∧
  ∀ s : State, s.cfg.Legal →
    (s.m = 1#1 → (s.r.toNat < 1 ∨ 10 < s.r.toNat ∨ s.k = 0#12) →
      exec .declen s = .next { s with fault := 2#3, finfo := s.r.setWidth 16, fcmd := 0xD0000000#32 }) ∧
    (¬ (s.m = 1#1 ∧ (s.r.toNat < 1 ∨ 10 < s.r.toNat ∨ s.k = 0#12)) →
      let bits := if s.m = 1#1 then 11 * s.k.toNat - (11 - s.r.toNat) else 11 * s.k.toNat
      (s.bmax < bits / 8 →
        exec .declen s = .next { s with fault := 4#3, finfo := 0#16, fcmd := 0xD0000000#32 }) ∧
      (bits / 8 ≤ s.bmax → ∃ t, exec .declen s = .next t ∧ { t with n := s.n, r := s.r } = s ∧
        t.n.toNat = bits / 8 ∧ t.r = if s.m = 0#1 then 0#4 else s.r))

/-- 42_padding.md R100: what ENCLEN leaves in K and R says how the last symbol is filled: `r` buffer bits at its high end,
then zeros. -/
def Obligations.DescriptorSaysHowTheLastSymbolIsFilled : Prop :=
  ∀ s : State, StateInv s → ∃ t, exec .enclen s = .next t ∧ t.r.toNat ≤ 10 ∧
    (t.r ≠ 0#4 → 8 * s.n.toNat = 11 * (t.k.toNat - 1) + t.r.toNat ∧ 1 ≤ t.k.toNat ∧
      ∀ b, b < 11 → (s.get11Value (t.k.toNat - 1)).testBit (10 - b) =
        if b < t.r.toNat then s.streamBit (8 * s.n.toNat - t.r.toNat + b) else false) ∧
    (t.r = 0#4 → 8 * s.n.toNat = 11 * t.k.toNat ∧ t.k.toNat % 8 = 0) ∧
    (t.r = 0#4 ↔ s.n.toNat % 11 = 0) ∧
    t.r.toNat = [0, 8, 5, 2, 10, 7, 4, 1, 9, 6, 3].getD (s.n.toNat % 11) 0

/-- 42_padding.md R103: DECLEN after ENCLEN leaves the length unchanged, with no fault. -/
def Obligations.DeclenUndoesEnclen : Prop :=
  ∀ s : State, StateInv s → ∃ t u, exec .enclen s = .next t ∧ exec .declen t = .next u ∧ u.n = s.n ∧ u.fault = s.fault

/-- 42_padding.md R104: the triples that some length gives under ENCLEN are the canonical ones. A triple with no marker is
read with descriptor 0, which is what ENCLEN leaves and what DECLEN sets. -/
def Obligations.CanonicalTriplesAreThoseOfSomeLength : Prop :=
  ∀ (k : Nat) (marked : Bool) (r : Nat),
    (∃ n, symbolCount n = k ∧ decide (marker n = 1#1) = marked ∧ descriptor n = r) ↔ CanonicalTriple k marked r

/-! ### The engine as a whole -/

/-- 43_codec_context.md R118 (a), over the block: take the count, marker, descriptor and symbols that ENCLEN and SPLIT leave
to any other instance state with the same legal capacity; DECLEN and JOIN there end with the original length and bytes
and no new fault. -/
def Obligations.DecodingWhatWasEncodedRestoresTheBytes : Prop :=
  ∀ s : State, StateInv s → ∃ t t', exec .enclen s = .next t ∧ exec .split t = .next t' ∧
    ∀ u : State, u.cfg = s.cfg → u.k = t'.k → u.m = t'.m → (t'.m = 1#1 → u.r = t'.r) →
      (∀ i, i < t'.k.toNat → u.symAt i = t'.symAt i) →
      ∃ v v', exec .declen u = .next v ∧ exec .join v = .next v' ∧ v'.n = s.n ∧ v'.fault = u.fault ∧
        ∀ j, j < s.n.toNat → v'.byteAt j = s.byteAt j

/-- 70_reset_and_hazards.md R151: right after reset the whole-buffer commands are defined and fault-free. -/
def Obligations.EmptyInputAfterReset : Prop :=
  ∀ s : State,
    (∃ t, exec .split s.takeReset = .next t ∧ t.k = 0#12 ∧ t.fault = 0#3 ∧ ∀ i, t.symAt i = s.takeReset.symAt i) ∧
    (∃ t, exec .enclen s.takeReset = .next t ∧ t.k = 0#12 ∧ t.r = 0#4 ∧ t.m = 0#1 ∧ t.fault = 0#3) ∧
    (∃ t, exec .declen s.takeReset = .next t ∧ t.n = 0#13 ∧ t.fault = 0#3) ∧
    (∃ t, exec .join s.takeReset = .next t ∧ t.fault = 0#3 ∧ ∀ j, t.byteAt j = s.takeReset.byteAt j) ∧
    (∃ t, exec .shl11 s.takeReset = .next t ∧ t.fault = 0#3 ∧ ∀ j, t.byteAt j = s.takeReset.byteAt j)

/-- 10_state.md R27: what the regrouping and padding commands deliver, and how they fault, depends on their named inputs
only; for GET11 and PUT11 these are the at most three cells of the symbol that lie below N. -/
def Obligations.ResultsDependOnNamedInputsOnly : Prop :=
  ∀ s s' : State,
    (s.n = s'.n → (∀ j, j < s.n.toNat → s.byteAt j = s'.byteAt j) →
      (∃ t t', exec .split s = .next t ∧ exec .split s' = .next t' ∧ t.k = t'.k ∧
        ∀ i, i < (8 * s.n.toNat + 10) / 11 → t.symAt i = t'.symAt i) ∧
      (∃ t t', exec .shl11 s = .next t ∧ exec .shl11 s' = .next t' ∧
        ∀ j, j < s.n.toNat → t.byteAt j = t'.byteAt j)) ∧
    (∀ idx : Idx, s.n = s'.n →
      (∀ j, 11 * idx.toNat / 8 ≤ j → j ≤ 11 * idx.toNat / 8 + 2 → j < s.n.toNat → s.byteAt j = s'.byteAt j) →
      (∃ t t', exec (.get11 idx) s = .next t ∧ exec (.get11 idx) s' = .next t' ∧ t.out = t'.out) ∧
      (∀ val, ∃ t t', exec (.put11 idx val) s = .next t ∧ exec (.put11 idx val) s' = .next t' ∧
        (∀ j, 11 * idx.toNat / 8 ≤ j → j ≤ 11 * idx.toNat / 8 + 2 → j < s.n.toNat → t.byteAt j = t'.byteAt j) ∧
        (2047 < val.toNat → t.fault = t'.fault ∧ t.finfo = t'.finfo))) ∧
    (s.n = s'.n → s.k = s'.k → (∀ i, i < s.k.toNat → s.symAt i = s'.symAt i) →
      ∃ t t', exec .join s = .next t ∧ exec .join s' = .next t' ∧
        ((∀ i, i < s.k.toNat → (s.symAt i).toNat ≤ 2047) → ∀ j, j < s.n.toNat → t.byteAt j = t'.byteAt j) ∧
        ((∃ i, i < s.k.toNat ∧ 2047 < (s.symAt i).toNat) →
          t.fault = 1#3 ∧ t'.fault = 1#3 ∧ t.finfo = t'.finfo)) ∧
    (s.n = s'.n → ∃ t t', exec .enclen s = .next t ∧ exec .enclen s' = .next t' ∧
      t.k = t'.k ∧ t.r = t'.r ∧ t.m = t'.m) ∧
    (s.cfg = s'.cfg → s.k = s'.k → s.m = s'.m → s.r = s'.r → s.fault = 0#3 → s'.fault = 0#3 →
      ∃ t t', exec .declen s = .next t ∧ exec .declen s' = .next t' ∧ t.fault = t'.fault ∧ t.r = t'.r ∧
        (t.fault = 0#3 → t.n = t'.n))

/-- 20_memory.md R37: repeating a command other than SHL11 on the state it left changes nothing more. -/
def Obligations.RepeatingACommandChangesNothingMore : Prop :=
  ∀ (i : Instr) (s t : State), StateInv s → i ≠ .shl11 → exec i s = .next t → exec i t = .next t

/-- 70_reset_and_hazards.md R152, R153 H1: a command whose input cells have all been written gives a result that does not
depend on the memories' free values (log entry 2). -/
def Obligations.WrittenInputsMakeResultsDefinite : Prop :=
  ∀ (i : Instr) (s t : State) (r : Nat), InputsWritten i s = true → exec i s = .next t →
    exec i { s with resets := r } = .next { t with resets := r }

/-- 30_encoding.md R61: the expansions of the pseudo-commands, for operand lists whose indices the `idx` field can hold;
every index and the count are then exact. What the model does with longer lists is its own choice (log entry 12), and
nothing is said of it here. -/
def Obligations.PseudoCommandsExpandAsListed : Prop :=
  Pseudo.enc.expand = [.enclen, .split] ∧ Pseudo.dec.expand = [.declen, .join] ∧
  (∀ bytes : List Byte, (Pseudo.loadb bytes).wellFormed = true →
    (Pseudo.loadb bytes).expand =
      .setr 0#12 (BitVec.ofNat 16 bytes.length) ::
        bytes.zipIdx.map (fun p => Instr.wrb (BitVec.ofNat 12 p.2) (p.1.setWidth 16)) ∧
    (BitVec.ofNat 16 bytes.length).toNat = bytes.length ∧
    ∀ j, j < bytes.length → (BitVec.ofNat 12 j).toNat = j) ∧
  (∀ cells : List Cell16, (Pseudo.loads cells).wellFormed = true →
    (Pseudo.loads cells).expand =
      .setr 1#12 (BitVec.ofNat 16 cells.length) ::
        cells.zipIdx.map (fun p => Instr.wrs (BitVec.ofNat 12 p.2) p.1) ∧
    (BitVec.ofNat 16 cells.length).toNat = cells.length ∧
    ∀ i, i < cells.length → (BitVec.ofNat 12 i).toNat = i)

/-- 30_encoding.md R61, 70_reset_and_hazards.md R152: presenting LOADB to a running block hands over exactly the bytes, and
LOADS exactly the cells. -/
def Obligations.LoadsHandOverTheirOperands : Prop :=
  (∀ (s : State) (bytes : List Byte), s.fault = 0#3 → s.cfg.Legal → bytes.length ≤ s.bmax →
    ∃ t, presentAll s ((Pseudo.loadb bytes).expand.map encode) = .next t ∧ t.fault = 0#3 ∧
      t.n.toNat = bytes.length ∧ ∀ j, t.byteAt j = (bytes[j]?).getD (s.byteAt j)) ∧
  (∀ (s : State) (cells : List Cell16), s.fault = 0#3 → s.cfg.Legal → cells.length ≤ s.smax →
    ∃ t, presentAll s ((Pseudo.loads cells).expand.map encode) = .next t ∧ t.fault = 0#3 ∧
      t.k.toNat = cells.length ∧ ∀ i, t.symAt i = (cells[i]?).getD (s.symAt i))

/-- 30_encoding.md R60: the rule's example lines have the words it gives. -/
def Obligations.AssemblerExamplesHaveTheListedWords : Prop :=
  assembleWords? "WRB 0, 0x31" = some [0x10000031#32] ∧
  assembleWords? "SETR N, 11" = some [0x5000000B#32] ∧
  assembleWords? "GET11 7" = some [0x70070000#32] ∧
  assembleWords? "PUT11 1, 0x7FF" = some [0x800107FF#32] ∧
  assembleWords? "JOIN" = some [0xA0000000#32]
end

