-- ==== Sys2Proof/Laws/Decode.lean ====
section
/-! SUPPORT. The three fields of a command word, and when a row of the opcode map selects it. -/

namespace Sys2Proof

@[simp] theorem opField_assemble (op : BitVec 4) (idx : Idx) (val : Cell16) : opField (assemble op idx val) = op := by
  ext b hb
  simp only [opField, assemble, BitVec.getElem_extractLsb', BitVec.getLsbD_append]
  simp [show ¬ (28 + b < 16) by omega, show ¬ (28 + b - 16 < 12) by omega, show 28 + b - 16 - 12 = b by omega, BitVec.getLsbD_eq_getElem hb]

@[simp] theorem idxField_assemble (op : BitVec 4) (idx : Idx) (val : Cell16) : idxField (assemble op idx val) = idx := by
  ext b hb
  simp only [idxField, assemble, BitVec.getElem_extractLsb', BitVec.getLsbD_append]
  simp [hb, show ¬ (16 + b < 16) by omega]

@[simp] theorem valField_assemble (op : BitVec 4) (idx : Idx) (val : Cell16) : valField (assemble op idx val) = val := by
  ext b hb
  simp only [valField, assemble, BitVec.getElem_extractLsb', BitVec.getLsbD_append]
  simp [hb]

/-- Every word is made of its three fields (R51). -/
theorem assemble_fields (cmd : Word) : assemble (opField cmd) (idxField cmd) (valField cmd) = cmd := by
  refine BitVec.eq_of_getLsbD_eq fun b hb => ?_
  simp only [assemble, opField, idxField, valField, BitVec.getLsbD_append, BitVec.getLsbD_extractLsb']
  by_cases h1 : b < 16
  · simp [h1]
  · by_cases h2 : b - 16 < 12
    · simp [h1, h2, show 16 + (b - 16) = b by omega]
    · simp [h1, h2, show 28 + (b - 16 - 12) = b by omega, show b - 16 - 12 < 4 by omega]

/-- Two words are equal exactly when their fields are. -/
theorem assemble_inj {op op' : BitVec 4} {idx idx' : Idx} {val val' : Cell16} :
    assemble op idx val = assemble op' idx' val' ↔ op = op' ∧ idx = idx' ∧ val = val' := by
  constructor
  · intro h
    exact ⟨by simpa using congrArg opField h, by simpa using congrArg idxField h, by simpa using congrArg valField h⟩
  · rintro ⟨rfl, rfl, rfl⟩; rfl

theorem opField_and (a b : Word) : opField (a &&& b) = opField a &&& opField b := BitVec.extractLsb'_and

theorem idxField_and (a b : Word) : idxField (a &&& b) = idxField a &&& idxField b := BitVec.extractLsb'_and

theorem valField_and (a b : Word) : valField (a &&& b) = valField a &&& valField b := BitVec.extractLsb'_and

theorem assemble_and (op op' : BitVec 4) (idx idx' : Idx) (val val' : Cell16) :
    assemble op idx val &&& assemble op' idx' val' = assemble (op &&& op') (idx &&& idx') (val &&& val') := by
  rw [← assemble_fields (assemble op idx val &&& assemble op' idx' val'), assemble_inj, opField_and, idxField_and,
    valField_and]
  simp

/-- The bits that must be zero in `idx`, per format (R53). -/
def Format.idxMask : Format → Idx
  | .z => 0xFFF#12
  | .x => 0#12
  | .xb => 0#12
  | .xv => 0#12

/-- The bits that must be zero in `val`, per format (R53). -/
def Format.valMask : Format → Cell16
  | .z => 0xFFFF#16
  | .x => 0xFFFF#16
  | .xb => 0xFF00#16
  | .xv => 0#16

theorem Format.mask_eq (f : Format) : f.mask = assemble 0xF#4 f.idxMask f.valMask := by cases f <;> decide

/-- Every row's pattern is its opcode with every other bit zero (R54). -/
theorem pattern_eq : ∀ row ∈ opcodeTable, row.pattern = assemble (opField row.pattern) 0#12 0#16 := by decide

/-- No two rows have one opcode (R54). -/
theorem opcodes_distinct : opcodeTable.Pairwise (fun row row' => opField row.pattern ≠ opField row'.pattern) := by
  decide

/-- A row selects a word exactly when the opcode is the row's and the must-be-zero bits are zero (R53, R55). -/
theorem selects_iff (row : Row) (h : row ∈ opcodeTable) (cmd : Word) :
    row.selects cmd = true ↔
      opField cmd = opField row.pattern ∧ idxField cmd &&& row.format.idxMask = 0#12 ∧
        valField cmd &&& row.format.valMask = 0#16 := by
  rw [Row.selects, beq_iff_eq, pattern_eq row h, Format.mask_eq, opField_assemble]
  conv_lhs => rw [← assemble_fields cmd, assemble_and, assemble_inj]
  rw [show (0xF#4) = BitVec.allOnes 4 by decide, BitVec.and_allOnes]

end Sys2Proof
end

