-- ==== Sys2Proof/Laws/Memory.lean ====
section
/-! SUPPORT. What the cell-array operations do: reads after writes, the canonical form kept, equal contents are equal data. -/

namespace Sys2Proof.Machine

variable {w : Nat}

@[simp] theorem Memory.get?_nil (a : Nat) : Memory.get? (w := w) a [] = none := rfl

theorem Memory.get?_cons (a b : Nat) (v : BitVec w) (m : Memory w) :
    Memory.get? a ((b, v) :: m) = if a = b then some v else Memory.get? a m := rfl

/-- Reading after writing one cell, on every list, canonical or not. -/
theorem Memory.get?_set (a c : Nat) (v : BitVec w) (m : Memory w) :
    Memory.get? c (Memory.set a v m) = if c = a then some v else Memory.get? c m := by
  induction m with
  | nil => rfl
  | cons cell m ih =>
    obtain ⟨b, u⟩ := cell
    unfold Memory.set
    split
    · rw [Memory.get?_cons, Memory.get?_cons]
    · split
      · subst_vars
        rw [Memory.get?_cons, Memory.get?_cons]
        split <;> simp_all
      · rw [Memory.get?_cons, Memory.get?_cons, ih]
        split <;> split <;> simp_all

theorem Memory.get?_append (a : Nat) (l m : Memory w) :
    Memory.get? a (l ++ m) = (Memory.get? a l).or (Memory.get? a m) := by
  induction l with
  | nil => rfl
  | cons cell l ih =>
    obtain ⟨b, u⟩ := cell
    rw [List.cons_append, Memory.get?_cons, Memory.get?_cons, ih]
    split <;> rfl

theorem Memory.get?_filter_from (n a : Nat) (m : Memory w) :
    Memory.get? a (m.filter (fun c => decide (n ≤ c.1))) = if n ≤ a then Memory.get? a m else none := by
  induction m with
  | nil => simp
  | cons cell m ih =>
    obtain ⟨b, u⟩ := cell
    by_cases hb : n ≤ b
    · simp only [List.filter_cons, hb, decide_true, if_true, Memory.get?_cons, ih]
      by_cases hab : a = b
      · subst hab; simp [hb]
      · simp [hab]
    · rw [List.filter_cons_of_neg (by simpa using hb), ih, Memory.get?_cons]
      by_cases hab : a = b
      · subst hab; simp [hb]
      · simp [hab]

theorem Memory.get?_map_pairs (a : Nat) (f : Nat → BitVec w) (l : List Nat) :
    Memory.get? a (l.map (fun j => (j, f j))) = if a ∈ l then some (f a) else none := by
  induction l with
  | nil => rfl
  | cons b l ih =>
    rw [List.map_cons, Memory.get?_cons, ih]
    by_cases hab : a = b
    · subst hab; simp
    · simp [hab]

/-- Reading after writing a prefix. -/
theorem Memory.get?_setPrefix (n c : Nat) (f : Nat → BitVec w) (m : Memory w) :
    Memory.get? c (Memory.setPrefix n f m) = if c < n then some (f c) else Memory.get? c m := by
  rw [Memory.setPrefix, Memory.get?_append, Memory.get?_map_pairs, Memory.get?_filter_from]
  by_cases h : c < n
  · simp [h]
  · simp [h, Nat.le_of_not_lt h]

theorem Memory.risingFrom_cons (lo a : Nat) (v : BitVec w) (m : Memory w) :
    Memory.risingFrom lo ((a, v) :: m) = true ↔ lo ≤ a ∧ Memory.risingFrom (a + 1) m = true := by
  simp [Memory.risingFrom]

theorem Memory.risingFrom_mono {lo lo' : Nat} (h : lo' ≤ lo) {m : Memory w} (hm : Memory.risingFrom lo m = true) :
    Memory.risingFrom lo' m = true := by
  cases m with
  | nil => rfl
  | cons cell m =>
    obtain ⟨a, v⟩ := cell
    rw [Memory.risingFrom_cons] at hm ⊢
    exact ⟨h.trans hm.1, hm.2⟩

theorem Memory.get?_of_lt {lo : Nat} {m : Memory w} (hm : Memory.risingFrom lo m = true) {a : Nat} (h : a < lo) :
    Memory.get? a m = none := by
  induction m generalizing lo with
  | nil => rfl
  | cons cell m ih =>
    obtain ⟨b, v⟩ := cell
    rw [Memory.risingFrom_cons] at hm
    rw [Memory.get?_cons, if_neg (by omega)]
    exact ih hm.2 (by omega)

theorem Memory.risingFrom_set {lo a : Nat} {m : Memory w} (hm : Memory.risingFrom lo m = true) (h : lo ≤ a)
    (v : BitVec w) : Memory.risingFrom lo (Memory.set a v m) = true := by
  induction m generalizing lo with
  | nil => simpa [Memory.set, Memory.risingFrom] using h
  | cons cell m ih =>
    obtain ⟨b, u⟩ := cell
    rw [Memory.risingFrom_cons] at hm
    unfold Memory.set
    split
    · rw [Memory.risingFrom_cons, Memory.risingFrom_cons]
      exact ⟨h, by omega, hm.2⟩
    · split
      · subst_vars
        rw [Memory.risingFrom_cons]
        exact ⟨h, hm.2⟩
      · rw [Memory.risingFrom_cons]
        exact ⟨hm.1, ih hm.2 (by omega)⟩

theorem Memory.risingFrom_append_range (f : Nat → BitVec w) (m : Memory w) (n lo : Nat)
    (hm : Memory.risingFrom (lo + n) m = true) :
    Memory.risingFrom lo ((List.range' lo n).map (fun j => (j, f j)) ++ m) = true := by
  induction n generalizing lo with
  | zero => simpa using hm
  | succ n ih =>
    rw [List.range'_succ, List.map_cons, List.cons_append, Memory.risingFrom_cons]
    exact ⟨Nat.le_refl _, ih (lo + 1) (by rwa [show lo + 1 + n = lo + (n + 1) by omega])⟩

theorem Memory.risingFrom_filter {lo : Nat} {m : Memory w} (hm : Memory.risingFrom lo m = true) (n : Nat) :
    Memory.risingFrom (max lo n) (m.filter (fun c => decide (n ≤ c.1))) = true := by
  induction m generalizing lo with
  | nil => rfl
  | cons cell m ih =>
    obtain ⟨b, u⟩ := cell
    rw [Memory.risingFrom_cons] at hm
    by_cases hb : n ≤ b
    · simp only [List.filter_cons, hb, decide_true, if_true]
      rw [Memory.risingFrom_cons]
      exact ⟨by omega, Memory.risingFrom_mono (by omega) (ih hm.2)⟩
    · simp only [List.filter_cons, hb, decide_false]
      exact Memory.risingFrom_mono (by omega) (ih hm.2)

theorem Memory.wf_iff (cells : Nat) (m : Memory w) :
    Memory.wf cells m = true ↔ Memory.risingFrom 0 m = true ∧ ∀ c ∈ m, c.1 < cells := by
  simp [Memory.wf, List.all_eq_true]

theorem Memory.mem_set {a : Nat} {v : BitVec w} {m : Memory w} {c : Nat × BitVec w} (hc : c ∈ Memory.set a v m) :
    c = (a, v) ∨ c ∈ m := by
  induction m with
  | nil => simpa [Memory.set] using hc
  | cons cell m ih =>
    obtain ⟨b, u⟩ := cell
    unfold Memory.set at hc
    split at hc
    · simpa using hc
    · split at hc
      · rcases List.mem_cons.1 hc with h | h
        · exact .inl h
        · exact .inr (List.mem_cons_of_mem _ h)
      · rcases List.mem_cons.1 hc with h | h
        · exact .inr (by simp [h])
        · rcases ih h with h | h
          · exact .inl h
          · exact .inr (List.mem_cons_of_mem _ h)

/-- The empty cell array is in canonical form. -/
@[simp] theorem Memory.wf_nil (cells : Nat) : Memory.wf (w := w) cells [] = true := rfl

/-- Writing one cell keeps the canonical form. -/
theorem Memory.wf_set {cells a : Nat} {m : Memory w} (hm : Memory.wf cells m = true) (h : a < cells) (v : BitVec w) :
    Memory.wf cells (Memory.set a v m) = true := by
  rw [Memory.wf_iff] at hm ⊢
  refine ⟨Memory.risingFrom_set hm.1 (Nat.zero_le _) v, fun c hc => ?_⟩
  rcases Memory.mem_set hc with rfl | hc
  · exact h
  · exact hm.2 c hc

/-- Writing a prefix keeps the canonical form. -/
theorem Memory.wf_setPrefix {cells n : Nat} {m : Memory w} (hm : Memory.wf cells m = true) (h : n ≤ cells)
    (f : Nat → BitVec w) : Memory.wf cells (Memory.setPrefix n f m) = true := by
  rw [Memory.wf_iff] at hm ⊢
  refine ⟨?_, fun c hc => ?_⟩
  · rw [Memory.setPrefix, List.range_eq_range']
    refine Memory.risingFrom_append_range f _ n 0 ?_
    simpa using Memory.risingFrom_filter hm.1 n
  · rw [Memory.setPrefix, List.mem_append] at hc
    rcases hc with hc | hc
    · obtain ⟨j, hj, rfl⟩ := List.mem_map.1 hc
      exact (List.mem_range.1 hj).trans_le h
    · exact hm.2 c (List.mem_filter.1 hc).1

theorem Memory.eq_of_get?_eq_from {lo : Nat} {m m' : Memory w} (hm : Memory.risingFrom lo m = true)
    (hm' : Memory.risingFrom lo m' = true) (h : ∀ a, Memory.get? a m = Memory.get? a m') : m = m' := by
  induction m generalizing lo m' with
  | nil =>
    cases m' with
    | nil => rfl
    | cons cell' m' =>
      obtain ⟨b, u⟩ := cell'
      have := h b
      simp [Memory.get?_cons] at this
  | cons cell m ih =>
    obtain ⟨a, v⟩ := cell
    rw [Memory.risingFrom_cons] at hm
    cases m' with
    | nil =>
      have := h a
      simp [Memory.get?_cons] at this
    | cons cell' m' =>
      obtain ⟨b, u⟩ := cell'
      rw [Memory.risingFrom_cons] at hm'
      have hab : a = b := by
        rcases Nat.lt_trichotomy a b with hlt | heq | hgt
        · have := h a
          rw [Memory.get?_cons, Memory.get?_cons, if_pos rfl, if_neg (by omega),
            Memory.get?_of_lt hm'.2 (by omega)] at this
          exact absurd this (by simp)
        · exact heq
        · have := h b
          rw [Memory.get?_cons, Memory.get?_cons, if_pos rfl, if_neg (by omega),
            Memory.get?_of_lt hm.2 (by omega)] at this
          exact absurd this (by simp)
      subst hab
      have hv : v = u := by simpa [Memory.get?_cons] using h a
      subst hv
      have htail : m = m' := by
        refine ih hm.2 hm'.2 fun c => ?_
        by_cases hc : c < a + 1
        · rw [Memory.get?_of_lt hm.2 hc, Memory.get?_of_lt hm'.2 hc]
        · have := h c
          rwa [Memory.get?_cons, Memory.get?_cons, if_neg (by omega), if_neg (by omega)] at this
      rw [htail]

/-- Two cell arrays in canonical form with the same written cells are the same data. -/
theorem Memory.eq_of_get?_eq {cells cells' : Nat} {m m' : Memory w} (hm : Memory.wf cells m = true)
    (hm' : Memory.wf cells' m' = true) (h : ∀ a, Memory.get? a m = Memory.get? a m') : m = m' :=
  Memory.eq_of_get?_eq_from ((Memory.wf_iff _ _).1 hm).1 ((Memory.wf_iff _ _).1 hm').1 h

end Sys2Proof.Machine
end

