-- ==== Sys2Proof/Laws/State.lean ====
section
/-! SUPPORT. One lemma per field per named update of the state, true by rfl. -/

namespace Sys2Proof.Machine

@[simp] theorem State.withBuf_buf (s : State) (v : Memory 8) : (s.withBuf v).buf = v := rfl
@[simp] theorem State.withBuf_sym (s : State) (v : Memory 8) : (s.withBuf v).sym = s.sym := rfl
@[simp] theorem State.withBuf_n (s : State) (v : Memory 8) : (s.withBuf v).n = s.n := rfl
@[simp] theorem State.withBuf_k (s : State) (v : Memory 8) : (s.withBuf v).k = s.k := rfl
@[simp] theorem State.withBuf_r (s : State) (v : Memory 8) : (s.withBuf v).r = s.r := rfl
@[simp] theorem State.withBuf_m (s : State) (v : Memory 8) : (s.withBuf v).m = s.m := rfl
@[simp] theorem State.withBuf_out (s : State) (v : Memory 8) : (s.withBuf v).out = s.out := rfl
@[simp] theorem State.withBuf_fault (s : State) (v : Memory 8) : (s.withBuf v).fault = s.fault := rfl
@[simp] theorem State.withBuf_finfo (s : State) (v : Memory 8) : (s.withBuf v).finfo = s.finfo := rfl
@[simp] theorem State.withBuf_fcmd (s : State) (v : Memory 8) : (s.withBuf v).fcmd = s.fcmd := rfl
@[simp] theorem State.withBuf_cfg (s : State) (v : Memory 8) : (s.withBuf v).cfg = s.cfg := rfl
@[simp] theorem State.withBuf_resets (s : State) (v : Memory 8) : (s.withBuf v).resets = s.resets := rfl
@[simp] theorem State.withBuf_host (s : State) (v : Memory 8) : (s.withBuf v).host = s.host := rfl

@[simp] theorem State.withSym_buf (s : State) (v : Memory 16) : (s.withSym v).buf = s.buf := rfl
@[simp] theorem State.withSym_sym (s : State) (v : Memory 16) : (s.withSym v).sym = v := rfl
@[simp] theorem State.withSym_n (s : State) (v : Memory 16) : (s.withSym v).n = s.n := rfl
@[simp] theorem State.withSym_k (s : State) (v : Memory 16) : (s.withSym v).k = s.k := rfl
@[simp] theorem State.withSym_r (s : State) (v : Memory 16) : (s.withSym v).r = s.r := rfl
@[simp] theorem State.withSym_m (s : State) (v : Memory 16) : (s.withSym v).m = s.m := rfl
@[simp] theorem State.withSym_out (s : State) (v : Memory 16) : (s.withSym v).out = s.out := rfl
@[simp] theorem State.withSym_fault (s : State) (v : Memory 16) : (s.withSym v).fault = s.fault := rfl
@[simp] theorem State.withSym_finfo (s : State) (v : Memory 16) : (s.withSym v).finfo = s.finfo := rfl
@[simp] theorem State.withSym_fcmd (s : State) (v : Memory 16) : (s.withSym v).fcmd = s.fcmd := rfl
@[simp] theorem State.withSym_cfg (s : State) (v : Memory 16) : (s.withSym v).cfg = s.cfg := rfl
@[simp] theorem State.withSym_resets (s : State) (v : Memory 16) : (s.withSym v).resets = s.resets := rfl
@[simp] theorem State.withSym_host (s : State) (v : Memory 16) : (s.withSym v).host = s.host := rfl

@[simp] theorem State.withN_buf (s : State) (v : BitVec 13) : (s.withN v).buf = s.buf := rfl
@[simp] theorem State.withN_sym (s : State) (v : BitVec 13) : (s.withN v).sym = s.sym := rfl
@[simp] theorem State.withN_n (s : State) (v : BitVec 13) : (s.withN v).n = v := rfl
@[simp] theorem State.withN_k (s : State) (v : BitVec 13) : (s.withN v).k = s.k := rfl
@[simp] theorem State.withN_r (s : State) (v : BitVec 13) : (s.withN v).r = s.r := rfl
@[simp] theorem State.withN_m (s : State) (v : BitVec 13) : (s.withN v).m = s.m := rfl
@[simp] theorem State.withN_out (s : State) (v : BitVec 13) : (s.withN v).out = s.out := rfl
@[simp] theorem State.withN_fault (s : State) (v : BitVec 13) : (s.withN v).fault = s.fault := rfl
@[simp] theorem State.withN_finfo (s : State) (v : BitVec 13) : (s.withN v).finfo = s.finfo := rfl
@[simp] theorem State.withN_fcmd (s : State) (v : BitVec 13) : (s.withN v).fcmd = s.fcmd := rfl
@[simp] theorem State.withN_cfg (s : State) (v : BitVec 13) : (s.withN v).cfg = s.cfg := rfl
@[simp] theorem State.withN_resets (s : State) (v : BitVec 13) : (s.withN v).resets = s.resets := rfl
@[simp] theorem State.withN_host (s : State) (v : BitVec 13) : (s.withN v).host = s.host := rfl

@[simp] theorem State.withK_buf (s : State) (v : BitVec 12) : (s.withK v).buf = s.buf := rfl
@[simp] theorem State.withK_sym (s : State) (v : BitVec 12) : (s.withK v).sym = s.sym := rfl
@[simp] theorem State.withK_n (s : State) (v : BitVec 12) : (s.withK v).n = s.n := rfl
@[simp] theorem State.withK_k (s : State) (v : BitVec 12) : (s.withK v).k = v := rfl
@[simp] theorem State.withK_r (s : State) (v : BitVec 12) : (s.withK v).r = s.r := rfl
@[simp] theorem State.withK_m (s : State) (v : BitVec 12) : (s.withK v).m = s.m := rfl
@[simp] theorem State.withK_out (s : State) (v : BitVec 12) : (s.withK v).out = s.out := rfl
@[simp] theorem State.withK_fault (s : State) (v : BitVec 12) : (s.withK v).fault = s.fault := rfl
@[simp] theorem State.withK_finfo (s : State) (v : BitVec 12) : (s.withK v).finfo = s.finfo := rfl
@[simp] theorem State.withK_fcmd (s : State) (v : BitVec 12) : (s.withK v).fcmd = s.fcmd := rfl
@[simp] theorem State.withK_cfg (s : State) (v : BitVec 12) : (s.withK v).cfg = s.cfg := rfl
@[simp] theorem State.withK_resets (s : State) (v : BitVec 12) : (s.withK v).resets = s.resets := rfl
@[simp] theorem State.withK_host (s : State) (v : BitVec 12) : (s.withK v).host = s.host := rfl

@[simp] theorem State.withR_buf (s : State) (v : BitVec 4) : (s.withR v).buf = s.buf := rfl
@[simp] theorem State.withR_sym (s : State) (v : BitVec 4) : (s.withR v).sym = s.sym := rfl
@[simp] theorem State.withR_n (s : State) (v : BitVec 4) : (s.withR v).n = s.n := rfl
@[simp] theorem State.withR_k (s : State) (v : BitVec 4) : (s.withR v).k = s.k := rfl
@[simp] theorem State.withR_r (s : State) (v : BitVec 4) : (s.withR v).r = v := rfl
@[simp] theorem State.withR_m (s : State) (v : BitVec 4) : (s.withR v).m = s.m := rfl
@[simp] theorem State.withR_out (s : State) (v : BitVec 4) : (s.withR v).out = s.out := rfl
@[simp] theorem State.withR_fault (s : State) (v : BitVec 4) : (s.withR v).fault = s.fault := rfl
@[simp] theorem State.withR_finfo (s : State) (v : BitVec 4) : (s.withR v).finfo = s.finfo := rfl
@[simp] theorem State.withR_fcmd (s : State) (v : BitVec 4) : (s.withR v).fcmd = s.fcmd := rfl
@[simp] theorem State.withR_cfg (s : State) (v : BitVec 4) : (s.withR v).cfg = s.cfg := rfl
@[simp] theorem State.withR_resets (s : State) (v : BitVec 4) : (s.withR v).resets = s.resets := rfl
@[simp] theorem State.withR_host (s : State) (v : BitVec 4) : (s.withR v).host = s.host := rfl

@[simp] theorem State.withM_buf (s : State) (v : BitVec 1) : (s.withM v).buf = s.buf := rfl
@[simp] theorem State.withM_sym (s : State) (v : BitVec 1) : (s.withM v).sym = s.sym := rfl
@[simp] theorem State.withM_n (s : State) (v : BitVec 1) : (s.withM v).n = s.n := rfl
@[simp] theorem State.withM_k (s : State) (v : BitVec 1) : (s.withM v).k = s.k := rfl
@[simp] theorem State.withM_r (s : State) (v : BitVec 1) : (s.withM v).r = s.r := rfl
@[simp] theorem State.withM_m (s : State) (v : BitVec 1) : (s.withM v).m = v := rfl
@[simp] theorem State.withM_out (s : State) (v : BitVec 1) : (s.withM v).out = s.out := rfl
@[simp] theorem State.withM_fault (s : State) (v : BitVec 1) : (s.withM v).fault = s.fault := rfl
@[simp] theorem State.withM_finfo (s : State) (v : BitVec 1) : (s.withM v).finfo = s.finfo := rfl
@[simp] theorem State.withM_fcmd (s : State) (v : BitVec 1) : (s.withM v).fcmd = s.fcmd := rfl
@[simp] theorem State.withM_cfg (s : State) (v : BitVec 1) : (s.withM v).cfg = s.cfg := rfl
@[simp] theorem State.withM_resets (s : State) (v : BitVec 1) : (s.withM v).resets = s.resets := rfl
@[simp] theorem State.withM_host (s : State) (v : BitVec 1) : (s.withM v).host = s.host := rfl

@[simp] theorem State.withOut_buf (s : State) (v : BitVec 16) : (s.withOut v).buf = s.buf := rfl
@[simp] theorem State.withOut_sym (s : State) (v : BitVec 16) : (s.withOut v).sym = s.sym := rfl
@[simp] theorem State.withOut_n (s : State) (v : BitVec 16) : (s.withOut v).n = s.n := rfl
@[simp] theorem State.withOut_k (s : State) (v : BitVec 16) : (s.withOut v).k = s.k := rfl
@[simp] theorem State.withOut_r (s : State) (v : BitVec 16) : (s.withOut v).r = s.r := rfl
@[simp] theorem State.withOut_m (s : State) (v : BitVec 16) : (s.withOut v).m = s.m := rfl
@[simp] theorem State.withOut_out (s : State) (v : BitVec 16) : (s.withOut v).out = v := rfl
@[simp] theorem State.withOut_fault (s : State) (v : BitVec 16) : (s.withOut v).fault = s.fault := rfl
@[simp] theorem State.withOut_finfo (s : State) (v : BitVec 16) : (s.withOut v).finfo = s.finfo := rfl
@[simp] theorem State.withOut_fcmd (s : State) (v : BitVec 16) : (s.withOut v).fcmd = s.fcmd := rfl
@[simp] theorem State.withOut_cfg (s : State) (v : BitVec 16) : (s.withOut v).cfg = s.cfg := rfl
@[simp] theorem State.withOut_resets (s : State) (v : BitVec 16) : (s.withOut v).resets = s.resets := rfl
@[simp] theorem State.withOut_host (s : State) (v : BitVec 16) : (s.withOut v).host = s.host := rfl

@[simp] theorem State.withHost_buf (s : State) (v : List HostEvent) : (s.withHost v).buf = s.buf := rfl
@[simp] theorem State.withHost_sym (s : State) (v : List HostEvent) : (s.withHost v).sym = s.sym := rfl
@[simp] theorem State.withHost_n (s : State) (v : List HostEvent) : (s.withHost v).n = s.n := rfl
@[simp] theorem State.withHost_k (s : State) (v : List HostEvent) : (s.withHost v).k = s.k := rfl
@[simp] theorem State.withHost_r (s : State) (v : List HostEvent) : (s.withHost v).r = s.r := rfl
@[simp] theorem State.withHost_m (s : State) (v : List HostEvent) : (s.withHost v).m = s.m := rfl
@[simp] theorem State.withHost_out (s : State) (v : List HostEvent) : (s.withHost v).out = s.out := rfl
@[simp] theorem State.withHost_fault (s : State) (v : List HostEvent) : (s.withHost v).fault = s.fault := rfl
@[simp] theorem State.withHost_finfo (s : State) (v : List HostEvent) : (s.withHost v).finfo = s.finfo := rfl
@[simp] theorem State.withHost_fcmd (s : State) (v : List HostEvent) : (s.withHost v).fcmd = s.fcmd := rfl
@[simp] theorem State.withHost_cfg (s : State) (v : List HostEvent) : (s.withHost v).cfg = s.cfg := rfl
@[simp] theorem State.withHost_resets (s : State) (v : List HostEvent) : (s.withHost v).resets = s.resets := rfl
@[simp] theorem State.withHost_host (s : State) (v : List HostEvent) : (s.withHost v).host = v := rfl

@[simp] theorem State.withFault_buf (s : State) (c : BitVec 3) (i : BitVec 16) (w : Word) :
    (s.withFault c i w).buf = s.buf := rfl
@[simp] theorem State.withFault_sym (s : State) (c : BitVec 3) (i : BitVec 16) (w : Word) :
    (s.withFault c i w).sym = s.sym := rfl
@[simp] theorem State.withFault_n (s : State) (c : BitVec 3) (i : BitVec 16) (w : Word) :
    (s.withFault c i w).n = s.n := rfl
@[simp] theorem State.withFault_k (s : State) (c : BitVec 3) (i : BitVec 16) (w : Word) :
    (s.withFault c i w).k = s.k := rfl
@[simp] theorem State.withFault_r (s : State) (c : BitVec 3) (i : BitVec 16) (w : Word) :
    (s.withFault c i w).r = s.r := rfl
@[simp] theorem State.withFault_m (s : State) (c : BitVec 3) (i : BitVec 16) (w : Word) :
    (s.withFault c i w).m = s.m := rfl
@[simp] theorem State.withFault_out (s : State) (c : BitVec 3) (i : BitVec 16) (w : Word) :
    (s.withFault c i w).out = s.out := rfl
@[simp] theorem State.withFault_fault (s : State) (c : BitVec 3) (i : BitVec 16) (w : Word) :
    (s.withFault c i w).fault = c := rfl
@[simp] theorem State.withFault_finfo (s : State) (c : BitVec 3) (i : BitVec 16) (w : Word) :
    (s.withFault c i w).finfo = i := rfl
@[simp] theorem State.withFault_fcmd (s : State) (c : BitVec 3) (i : BitVec 16) (w : Word) :
    (s.withFault c i w).fcmd = w := rfl
@[simp] theorem State.withFault_cfg (s : State) (c : BitVec 3) (i : BitVec 16) (w : Word) :
    (s.withFault c i w).cfg = s.cfg := rfl
@[simp] theorem State.withFault_resets (s : State) (c : BitVec 3) (i : BitVec 16) (w : Word) :
    (s.withFault c i w).resets = s.resets := rfl
@[simp] theorem State.withFault_host (s : State) (c : BitVec 3) (i : BitVec 16) (w : Word) :
    (s.withFault c i w).host = s.host := rfl

@[simp] theorem State.latch_buf (s : State) (c : Cause) (info : BitVec 16) (w : Word) :
    (s.latch c info w).buf = s.buf := rfl
@[simp] theorem State.latch_sym (s : State) (c : Cause) (info : BitVec 16) (w : Word) :
    (s.latch c info w).sym = s.sym := rfl
@[simp] theorem State.latch_n (s : State) (c : Cause) (info : BitVec 16) (w : Word) :
    (s.latch c info w).n = s.n := rfl
@[simp] theorem State.latch_k (s : State) (c : Cause) (info : BitVec 16) (w : Word) :
    (s.latch c info w).k = s.k := rfl
@[simp] theorem State.latch_r (s : State) (c : Cause) (info : BitVec 16) (w : Word) :
    (s.latch c info w).r = s.r := rfl
@[simp] theorem State.latch_m (s : State) (c : Cause) (info : BitVec 16) (w : Word) :
    (s.latch c info w).m = s.m := rfl
@[simp] theorem State.latch_out (s : State) (c : Cause) (info : BitVec 16) (w : Word) :
    (s.latch c info w).out = s.out := rfl
@[simp] theorem State.latch_fault (s : State) (c : Cause) (info : BitVec 16) (w : Word) :
    (s.latch c info w).fault = c.code := rfl
@[simp] theorem State.latch_finfo (s : State) (c : Cause) (info : BitVec 16) (w : Word) :
    (s.latch c info w).finfo = info := rfl
@[simp] theorem State.latch_fcmd (s : State) (c : Cause) (info : BitVec 16) (w : Word) :
    (s.latch c info w).fcmd = w := rfl
@[simp] theorem State.latch_cfg (s : State) (c : Cause) (info : BitVec 16) (w : Word) :
    (s.latch c info w).cfg = s.cfg := rfl
@[simp] theorem State.latch_resets (s : State) (c : Cause) (info : BitVec 16) (w : Word) :
    (s.latch c info w).resets = s.resets := rfl
@[simp] theorem State.latch_host (s : State) (c : Cause) (info : BitVec 16) (w : Word) :
    (s.latch c info w).host = s.host := rfl

@[simp] theorem State.takeReset_buf (s : State) : s.takeReset.buf = [] := rfl
@[simp] theorem State.takeReset_sym (s : State) : s.takeReset.sym = [] := rfl
@[simp] theorem State.takeReset_n (s : State) : s.takeReset.n = 0 := rfl
@[simp] theorem State.takeReset_k (s : State) : s.takeReset.k = 0 := rfl
@[simp] theorem State.takeReset_r (s : State) : s.takeReset.r = 0 := rfl
@[simp] theorem State.takeReset_m (s : State) : s.takeReset.m = 0 := rfl
@[simp] theorem State.takeReset_out (s : State) : s.takeReset.out = 0 := rfl
@[simp] theorem State.takeReset_fault (s : State) : s.takeReset.fault = 0 := rfl
@[simp] theorem State.takeReset_finfo (s : State) : s.takeReset.finfo = 0 := rfl
@[simp] theorem State.takeReset_fcmd (s : State) : s.takeReset.fcmd = 0 := rfl
@[simp] theorem State.takeReset_cfg (s : State) : s.takeReset.cfg = s.cfg := rfl
@[simp] theorem State.takeReset_resets (s : State) : s.takeReset.resets = s.resets + 1 := rfl
@[simp] theorem State.takeReset_host (s : State) : s.takeReset.host = s.host := rfl

@[simp] theorem State.writeByte_buf (s : State) (j : Nat) (v : Byte) : (s.writeByte j v).buf = s.buf.set j v := rfl
@[simp] theorem State.writeByte_sym (s : State) (j : Nat) (v : Byte) : (s.writeByte j v).sym = s.sym := rfl
@[simp] theorem State.writeByte_n (s : State) (j : Nat) (v : Byte) : (s.writeByte j v).n = s.n := rfl
@[simp] theorem State.writeByte_k (s : State) (j : Nat) (v : Byte) : (s.writeByte j v).k = s.k := rfl
@[simp] theorem State.writeByte_r (s : State) (j : Nat) (v : Byte) : (s.writeByte j v).r = s.r := rfl
@[simp] theorem State.writeByte_m (s : State) (j : Nat) (v : Byte) : (s.writeByte j v).m = s.m := rfl
@[simp] theorem State.writeByte_out (s : State) (j : Nat) (v : Byte) : (s.writeByte j v).out = s.out := rfl
@[simp] theorem State.writeByte_fault (s : State) (j : Nat) (v : Byte) : (s.writeByte j v).fault = s.fault := rfl
@[simp] theorem State.writeByte_finfo (s : State) (j : Nat) (v : Byte) : (s.writeByte j v).finfo = s.finfo := rfl
@[simp] theorem State.writeByte_fcmd (s : State) (j : Nat) (v : Byte) : (s.writeByte j v).fcmd = s.fcmd := rfl
@[simp] theorem State.writeByte_cfg (s : State) (j : Nat) (v : Byte) : (s.writeByte j v).cfg = s.cfg := rfl
@[simp] theorem State.writeByte_resets (s : State) (j : Nat) (v : Byte) : (s.writeByte j v).resets = s.resets := rfl
@[simp] theorem State.writeByte_host (s : State) (j : Nat) (v : Byte) : (s.writeByte j v).host = s.host := rfl

@[simp] theorem State.writeSym_buf (s : State) (i : Nat) (v : Cell16) : (s.writeSym i v).buf = s.buf := rfl
@[simp] theorem State.writeSym_sym (s : State) (i : Nat) (v : Cell16) : (s.writeSym i v).sym = s.sym.set i v := rfl
@[simp] theorem State.writeSym_n (s : State) (i : Nat) (v : Cell16) : (s.writeSym i v).n = s.n := rfl
@[simp] theorem State.writeSym_k (s : State) (i : Nat) (v : Cell16) : (s.writeSym i v).k = s.k := rfl
@[simp] theorem State.writeSym_r (s : State) (i : Nat) (v : Cell16) : (s.writeSym i v).r = s.r := rfl
@[simp] theorem State.writeSym_m (s : State) (i : Nat) (v : Cell16) : (s.writeSym i v).m = s.m := rfl
@[simp] theorem State.writeSym_out (s : State) (i : Nat) (v : Cell16) : (s.writeSym i v).out = s.out := rfl
@[simp] theorem State.writeSym_fault (s : State) (i : Nat) (v : Cell16) : (s.writeSym i v).fault = s.fault := rfl
@[simp] theorem State.writeSym_finfo (s : State) (i : Nat) (v : Cell16) : (s.writeSym i v).finfo = s.finfo := rfl
@[simp] theorem State.writeSym_fcmd (s : State) (i : Nat) (v : Cell16) : (s.writeSym i v).fcmd = s.fcmd := rfl
@[simp] theorem State.writeSym_cfg (s : State) (i : Nat) (v : Cell16) : (s.writeSym i v).cfg = s.cfg := rfl
@[simp] theorem State.writeSym_resets (s : State) (i : Nat) (v : Cell16) : (s.writeSym i v).resets = s.resets := rfl
@[simp] theorem State.writeSym_host (s : State) (i : Nat) (v : Cell16) : (s.writeSym i v).host = s.host := rfl

@[simp] theorem State.withBuf_bmax (s : State) (v : Memory 8) : (s.withBuf v).bmax = s.bmax := rfl
@[simp] theorem State.withBuf_smax (s : State) (v : Memory 8) : (s.withBuf v).smax = s.smax := rfl
@[simp] theorem State.withSym_bmax (s : State) (v : Memory 16) : (s.withSym v).bmax = s.bmax := rfl
@[simp] theorem State.withSym_smax (s : State) (v : Memory 16) : (s.withSym v).smax = s.smax := rfl
@[simp] theorem State.withN_bmax (s : State) (v : BitVec 13) : (s.withN v).bmax = s.bmax := rfl
@[simp] theorem State.withN_smax (s : State) (v : BitVec 13) : (s.withN v).smax = s.smax := rfl
@[simp] theorem State.withK_bmax (s : State) (v : BitVec 12) : (s.withK v).bmax = s.bmax := rfl
@[simp] theorem State.withK_smax (s : State) (v : BitVec 12) : (s.withK v).smax = s.smax := rfl
@[simp] theorem State.withR_bmax (s : State) (v : BitVec 4) : (s.withR v).bmax = s.bmax := rfl
@[simp] theorem State.withR_smax (s : State) (v : BitVec 4) : (s.withR v).smax = s.smax := rfl
@[simp] theorem State.withM_bmax (s : State) (v : BitVec 1) : (s.withM v).bmax = s.bmax := rfl
@[simp] theorem State.withM_smax (s : State) (v : BitVec 1) : (s.withM v).smax = s.smax := rfl
@[simp] theorem State.withOut_bmax (s : State) (v : BitVec 16) : (s.withOut v).bmax = s.bmax := rfl
@[simp] theorem State.withOut_smax (s : State) (v : BitVec 16) : (s.withOut v).smax = s.smax := rfl
@[simp] theorem State.withHost_bmax (s : State) (v : List HostEvent) : (s.withHost v).bmax = s.bmax := rfl
@[simp] theorem State.withHost_smax (s : State) (v : List HostEvent) : (s.withHost v).smax = s.smax := rfl
@[simp] theorem State.latch_bmax (s : State) (c : Cause) (info : BitVec 16) (w : Word) : (s.latch c info w).bmax = s.bmax := rfl
@[simp] theorem State.takeReset_bmax (s : State) : s.takeReset.bmax = s.bmax := rfl
@[simp] theorem State.writeByte_bmax (s : State) (j : Nat) (v : Byte) : (s.writeByte j v).bmax = s.bmax := rfl
@[simp] theorem State.writeSym_bmax (s : State) (i : Nat) (v : Cell16) : (s.writeSym i v).bmax = s.bmax := rfl
@[simp] theorem State.latch_smax (s : State) (c : Cause) (info : BitVec 16) (w : Word) : (s.latch c info w).smax = s.smax := rfl
@[simp] theorem State.takeReset_smax (s : State) : s.takeReset.smax = s.smax := rfl
@[simp] theorem State.writeByte_smax (s : State) (j : Nat) (v : Byte) : (s.writeByte j v).smax = s.smax := rfl
@[simp] theorem State.writeSym_smax (s : State) (i : Nat) (v : Cell16) : (s.writeSym i v).smax = s.smax := rfl

end Sys2Proof.Machine
end

