-- ==== Sys2Proof/Laws/Ops.lean ====
section
/-! SUPPORT. What each shared operation can do, said once: cell reads and writes, the bit stream, one symbol read and
written, the checks, taking a fault. -/

namespace Sys2Proof.Machine

/-! ### Cell reads -/

@[simp] theorem State.byteAt_withSym (s : State) (v : Memory 16) (j : Nat) : (s.withSym v).byteAt j = s.byteAt j := rfl
@[simp] theorem State.byteAt_withN (s : State) (v : BitVec 13) (j : Nat) : (s.withN v).byteAt j = s.byteAt j := rfl
@[simp] theorem State.byteAt_withK (s : State) (v : BitVec 12) (j : Nat) : (s.withK v).byteAt j = s.byteAt j := rfl
@[simp] theorem State.byteAt_withR (s : State) (v : BitVec 4) (j : Nat) : (s.withR v).byteAt j = s.byteAt j := rfl
@[simp] theorem State.byteAt_withM (s : State) (v : BitVec 1) (j : Nat) : (s.withM v).byteAt j = s.byteAt j := rfl
@[simp] theorem State.byteAt_withOut (s : State) (v : BitVec 16) (j : Nat) : (s.withOut v).byteAt j = s.byteAt j := rfl
@[simp] theorem State.byteAt_withHost (s : State) (v : List HostEvent) (j : Nat) :
    (s.withHost v).byteAt j = s.byteAt j := rfl
@[simp] theorem State.byteAt_latch (s : State) (c : Cause) (info : BitVec 16) (w : Word) (j : Nat) :
    (s.latch c info w).byteAt j = s.byteAt j := rfl
@[simp] theorem State.byteAt_writeSym (s : State) (i : Nat) (v : Cell16) (j : Nat) :
    (s.writeSym i v).byteAt j = s.byteAt j := rfl
@[simp] theorem State.symAt_withBuf (s : State) (v : Memory 8) (i : Nat) : (s.withBuf v).symAt i = s.symAt i := rfl
@[simp] theorem State.symAt_withN (s : State) (v : BitVec 13) (i : Nat) : (s.withN v).symAt i = s.symAt i := rfl
@[simp] theorem State.symAt_withK (s : State) (v : BitVec 12) (i : Nat) : (s.withK v).symAt i = s.symAt i := rfl
@[simp] theorem State.symAt_withR (s : State) (v : BitVec 4) (i : Nat) : (s.withR v).symAt i = s.symAt i := rfl
@[simp] theorem State.symAt_withM (s : State) (v : BitVec 1) (i : Nat) : (s.withM v).symAt i = s.symAt i := rfl
@[simp] theorem State.symAt_withOut (s : State) (v : BitVec 16) (i : Nat) : (s.withOut v).symAt i = s.symAt i := rfl
@[simp] theorem State.symAt_withHost (s : State) (v : List HostEvent) (i : Nat) :
    (s.withHost v).symAt i = s.symAt i := rfl
@[simp] theorem State.symAt_latch (s : State) (c : Cause) (info : BitVec 16) (w : Word) (i : Nat) :
    (s.latch c info w).symAt i = s.symAt i := rfl
@[simp] theorem State.symAt_writeByte (s : State) (j : Nat) (v : Byte) (i : Nat) :
    (s.writeByte j v).symAt i = s.symAt i := rfl

/-- After `BUF[j] <- v`, cell `j` reads `v` and every other cell as before. -/
theorem State.byteAt_writeByte (s : State) (j c : Nat) (v : Byte) :
    (s.writeByte j v).byteAt c = if c = j then v else s.byteAt c := by
  simp only [State.byteAt, State.writeByte_buf, State.writeByte_resets, Memory.get?_set]
  split <;> rfl

/-- After `SYM[i] <- v`, cell `i` reads `v` and every other cell as before. -/
theorem State.symAt_writeSym (s : State) (i c : Nat) (v : Cell16) :
    (s.writeSym i v).symAt c = if c = i then v else s.symAt c := by
  simp only [State.symAt, State.writeSym_sym, State.writeSym_resets, Memory.get?_set]
  split <;> rfl

/-- After `BUF[0 .. n-1]` is written with `f`. -/
theorem State.byteAt_setPrefix (s : State) (n c : Nat) (f : Nat → Byte) :
    (s.withBuf (s.buf.setPrefix n f)).byteAt c = if c < n then f c else s.byteAt c := by
  simp only [State.byteAt, State.withBuf_buf, State.withBuf_resets, Memory.get?_setPrefix]
  split <;> rfl

/-- After `SYM[0 .. n-1]` is written with `f`. -/
theorem State.symAt_setPrefix (s : State) (n c : Nat) (f : Nat → Cell16) :
    (s.withSym (s.sym.setPrefix n f)).symAt c = if c < n then f c else s.symAt c := by
  simp only [State.symAt, State.withSym_sym, State.withSym_resets, Memory.get?_setPrefix]
  split <;> rfl

/-- JOIN's zeroing (R88): the cells below `N` read 0, the others as before. -/
theorem State.byteAt_zeroBuffer (s : State) (c : Nat) :
    s.zeroBuffer.byteAt c = if c < s.n.toNat then 0#8 else s.byteAt c :=
  s.byteAt_setPrefix s.n.toNat c _

/-! ### The bit stream -/

theorem symbol_position (i : Nat) : 11 * i = 8 * firstCell i + bitShift i := by
  unfold firstCell bitShift; omega

theorem bitShift_lt (i : Nat) : bitShift i < 8 := Nat.mod_lt _ (by decide)

/-- A bit of `B(j)`, as a stream bit (R30, R31). -/
theorem State.padded_getLsbD (s : State) (j b : Nat) (hb : b < 8) :
    (s.padded j).getLsbD b = s.streamBit (8 * j + (7 - b)) := by
  unfold State.padded State.streamBit
  have h1 : (8 * j + (7 - b)) / 8 = j := by omega
  have h2 : 7 - (8 * j + (7 - b)) % 8 = b := by omega
  rw [h1, h2]
  by_cases hj : j < s.n.toNat
  · rw [if_pos hj, if_pos (by omega)]
  · rw [if_neg hj, if_neg (by omega)]
    simp

/-- The 24-bit window, its most significant bit first, is the stream from the first bit of cell `q` on (R80). -/
theorem State.window_getLsbD (s : State) (i k : Nat) (hk : k < 24) :
    (s.window i).getLsbD k = s.streamBit (8 * firstCell i + (23 - k)) := by
  unfold State.window
  rw [BitVec.getLsbD_append, BitVec.getLsbD_append]
  by_cases h1 : k < 8
  · rw [if_pos h1, s.padded_getLsbD _ _ h1]
    congr 1; omega
  · rw [if_neg h1]
    by_cases h2 : k - 8 < 8
    · rw [if_pos h2, s.padded_getLsbD _ _ h2]
      congr 1; omega
    · rw [if_neg h2, s.padded_getLsbD _ _ (by omega)]
      congr 1; omega

/-- Symbol `i` is the stream bits `11i .. 11i+10`, most significant first (R32). -/
theorem State.symbol_getLsbD (s : State) (i t : Nat) (ht : t < 11) :
    (s.symbol i).getLsbD (10 - t) = s.streamBit (11 * i + t) := by
  have hs := bitShift_lt i
  have hp := symbol_position i
  unfold State.symbol
  rw [BitVec.getLsbD_setWidth, BitVec.getLsbD_ushiftRight, s.window_getLsbD _ _ (by omega),
    show 8 * firstCell i + (23 - (13 - bitShift i + (10 - t))) = 11 * i + t by omega]
  simp [show 10 - t < 11 by omega]

theorem windowCell_getLsbD (w : Window) (t b : Nat) (hb : b < 8) :
    (windowCell w t).getLsbD b = w.getLsbD (16 - 8 * t + b) := by
  unfold windowCell
  rw [BitVec.getLsbD_extractLsb']
  simp [hb]

/-- The field of symbol `i` in its window: the 11 bits from window bit `s` on, most significant first (R82). -/
theorem fieldMask_getLsbD (i k : Nat) (hk : k < 24) :
    (fieldMask i).getLsbD k = decide (13 - bitShift i ≤ k ∧ k < 24 - bitShift i) := by
  have hs := bitShift_lt i
  unfold fieldMask
  rw [BitVec.getLsbD_shiftLeft, show (0x7FF#24) = BitVec.setWidth 24 (BitVec.allOnes 11) by decide,
    BitVec.getLsbD_setWidth, BitVec.getLsbD_allOnes]
  by_cases h1 : k < 13 - bitShift i
  · simp [h1, show ¬ (13 - bitShift i ≤ k) by omega]
  · simp only [hk, h1, decide_true, decide_false, Bool.not_false, Bool.true_and]
    by_cases h2 : k < 24 - bitShift i
    · simp [show k - (13 - bitShift i) < 11 by omega, h2, show 13 - bitShift i ≤ k by omega,
        show k - (13 - bitShift i) < 24 by omega]
    · simp [show ¬ (k - (13 - bitShift i) < 11) by omega, h2]

theorem fieldData_getLsbD (i : Nat) (v : Symbol) (k : Nat) (hk : k < 24) :
    (fieldData i v).getLsbD k =
      if 13 - bitShift i ≤ k ∧ k < 24 - bitShift i then v.getLsbD (k - (13 - bitShift i)) else false := by
  have hs := bitShift_lt i
  unfold fieldData
  rw [BitVec.getLsbD_shiftLeft, BitVec.getLsbD_setWidth]
  by_cases h1 : k < 13 - bitShift i
  · simp [h1, show ¬ (13 - bitShift i ≤ k) by omega]
  · simp only [hk, h1, decide_true, decide_false, Bool.not_false, Bool.true_and]
    by_cases h2 : k < 24 - bitShift i
    · simp [h2, show 13 - bitShift i ≤ k by omega, show k - (13 - bitShift i) < 24 by omega]
    · rw [if_neg (by omega), BitVec.getLsbD_of_ge _ _ (by omega)]
      simp

/-! ### One symbol written -/

/-- One turn of `put11` changes nothing but `BUF`. -/
theorem State.putCell_frame (s : State) (i : Nat) (v : Symbol) (t : Nat) :
    ∃ b, s.putCell i v t = s.withBuf b := by
  unfold State.putCell
  dsimp only
  split
  · exact ⟨_, rfl⟩
  · exact ⟨s.buf, rfl⟩

/-- `put11` changes nothing but `BUF`. -/
theorem State.putSymbol_frame (s : State) (i : Nat) (v : Symbol) : ∃ b, s.putSymbol i v = s.withBuf b := by
  obtain ⟨b0, h0⟩ := s.putCell_frame i v 0
  obtain ⟨b1, h1⟩ := (s.putCell i v 0).putCell_frame i v 1
  obtain ⟨b2, h2⟩ := ((s.putCell i v 0).putCell i v 1).putCell_frame i v 2
  exact ⟨b2, by rw [State.putSymbol, h2, h1, h0]; rfl⟩

/-- The writes of JOIN change nothing but `BUF`. -/
theorem State.putSymbols_frame (s : State) (count : Nat) : ∃ b, s.putSymbols count = s.withBuf b := by
  induction count with
  | zero => exact ⟨s.buf, rfl⟩
  | succ count ih =>
    obtain ⟨b, hb⟩ := ih
    obtain ⟨b', hb'⟩ := (s.putSymbols count).putSymbol_frame count ((s.symAt count).setWidth 11)
    exact ⟨b', by rw [State.putSymbols, hb', hb]; rfl⟩

/-- The bits of a cell with the field bits of window cell `t` replaced (R82). -/
def maskedByte (old : Byte) (i : Nat) (v : Symbol) (t : Nat) : Byte :=
  (old &&& ~~~windowCell (fieldMask i) t) ||| windowCell (fieldData i v) t

theorem windowCell_fieldData_of_mask (i : Nat) (v : Symbol) (t : Nat) (ht : t < 3)
    (h : windowCell (fieldMask i) t = 0#8) : windowCell (fieldData i v) t = 0#8 := by
  refine BitVec.eq_of_getLsbD_eq fun b hb => ?_
  have hm : (windowCell (fieldMask i) t).getLsbD b = false := by simp [h]
  rw [windowCell_getLsbD _ _ _ hb, fieldMask_getLsbD _ _ (by omega), decide_eq_false_iff_not] at hm
  rw [windowCell_getLsbD _ _ _ hb, fieldData_getLsbD _ _ _ (by omega), if_neg hm]
  simp

/-- One turn of `put11`, cell by cell. A cell whose mask is zero keeps its value either way. -/
theorem State.byteAt_putCell (s : State) (i : Nat) (v : Symbol) (t c : Nat) (ht : t < 3) :
    (s.putCell i v t).byteAt c =
      if c = firstCell i + t ∧ c < s.n.toNat then maskedByte (s.byteAt c) i v t else s.byteAt c := by
  unfold State.putCell
  dsimp only
  by_cases hm : windowCell (fieldMask i) t = 0#8
  · rw [if_neg (by simp [hm])]
    have : maskedByte (s.byteAt c) i v t = s.byteAt c := by
      rw [maskedByte, hm, windowCell_fieldData_of_mask i v t ht hm]
      rw [show ~~~(0#8) = BitVec.allOnes 8 by decide, BitVec.and_allOnes, BitVec.or_zero]
    rw [this, ite_self]
  · by_cases hn : firstCell i + t < s.n.toNat
    · rw [if_pos ⟨hn, hm⟩, State.byteAt_writeByte]
      by_cases hc : c = firstCell i + t
      · subst hc; simp [hn, maskedByte]
      · simp [hc]
    · rw [if_neg (by simp [hn])]
      rw [if_neg (by omega)]

/-- `put11`, cell by cell: the cells `q`, `q+1`, `q+2` below `N` have their field bits replaced (R82, R83). -/
theorem State.byteAt_putSymbol (s : State) (i : Nat) (v : Symbol) (c : Nat) :
    (s.putSymbol i v).byteAt c =
      if firstCell i ≤ c ∧ c < firstCell i + 3 ∧ c < s.n.toNat then
        maskedByte (s.byteAt c) i v (c - firstCell i)
      else s.byteAt c := by
  obtain ⟨b0, h0⟩ := s.putCell_frame i v 0
  obtain ⟨b1, h1⟩ := (s.putCell i v 0).putCell_frame i v 1
  have n0 : (s.putCell i v 0).n = s.n := by rw [h0]; rfl
  have n1 : ((s.putCell i v 0).putCell i v 1).n = s.n := by rw [h1]; simpa using n0
  rw [State.putSymbol, State.byteAt_putCell _ _ _ _ _ (by decide), State.byteAt_putCell _ _ _ _ _ (by decide),
    State.byteAt_putCell _ _ _ _ _ (by decide), n0, n1]
  by_cases hn : c < s.n.toNat
  · by_cases c0 : c = firstCell i
    · subst c0; simp [hn]
    · by_cases c1 : c = firstCell i + 1
      · subst c1; simp [hn]
      · by_cases c2 : c = firstCell i + 2
        · subst c2; simp [hn]
        · rw [if_neg (by omega), if_neg (by omega), if_neg (by omega), if_neg (by omega)]
  · simp [hn]

theorem maskedByte_getLsbD (old : Byte) (i : Nat) (v : Symbol) (t b : Nat) (ht : t < 3) (hb : b < 8) :
    (maskedByte old i v t).getLsbD b =
      if 13 - bitShift i ≤ 16 - 8 * t + b ∧ 16 - 8 * t + b < 24 - bitShift i then
        v.getLsbD (16 - 8 * t + b - (13 - bitShift i))
      else old.getLsbD b := by
  unfold maskedByte
  rw [BitVec.getLsbD_or, BitVec.getLsbD_and, BitVec.getLsbD_not, windowCell_getLsbD _ _ _ hb,
    windowCell_getLsbD _ _ _ hb, fieldMask_getLsbD _ _ (by omega), fieldData_getLsbD _ _ _ (by omega)]
  by_cases h : 13 - bitShift i ≤ 16 - 8 * t + b ∧ 16 - 8 * t + b < 24 - bitShift i
  · simp [h, hb]
  · rw [decide_eq_false h, if_neg h, if_neg h]
    simp [hb]

/-- `put11` on the bit stream: the field's positions below `8N` take the symbol's bits, most significant first, and every
other position keeps its bit (R39, R82, R83). -/
theorem State.streamBit_putSymbol (s : State) (i : Nat) (v : Symbol) (p : Nat) :
    (s.putSymbol i v).streamBit p =
      if 11 * i ≤ p ∧ p < 11 * i + 11 ∧ p < 8 * s.n.toNat then v.getLsbD (10 - (p - 11 * i)) else s.streamBit p := by
  obtain ⟨b, hb⟩ := s.putSymbol_frame i v
  have hn : (s.putSymbol i v).n = s.n := by rw [hb]; rfl
  have hs := bitShift_lt i
  have hp := symbol_position i
  unfold State.streamBit
  rw [hn]
  by_cases hlt : p < 8 * s.n.toNat
  · rw [if_pos hlt, if_pos hlt, State.byteAt_putSymbol]
    by_cases hq : firstCell i ≤ p / 8 ∧ p / 8 < firstCell i + 3
    · rw [if_pos ⟨hq.1, hq.2, by omega⟩, maskedByte_getLsbD _ _ _ _ _ (by omega) (by omega)]
      by_cases hf : 11 * i ≤ p ∧ p < 11 * i + 11
      · rw [if_pos (by omega), if_pos ⟨hf.1, hf.2, hlt⟩]
        congr 1; omega
      · rw [if_neg (by omega), if_neg (by omega)]
    · rw [if_neg (by omega), if_neg (by omega)]
  · rw [if_neg hlt, if_neg hlt, if_neg (by omega)]

/-! ### The checks and the outcomes -/

/-- JOIN's check passes exactly when the first `K` cells hold Symbols (R88). -/
theorem State.badSymbol_eq_none (s : State) :
    s.badSymbol = none ↔ ∀ i, i < s.k.toNat → (s.symAt i).toNat ≤ 2047 := by
  simp [State.badSymbol, isSymbol]

/-- JOIN's check names the lowest offending index (R88, R137). -/
theorem State.badSymbol_eq_some (s : State) (i : Nat) :
    s.badSymbol = some i ↔
      i < s.k.toNat ∧ 2047 < (s.symAt i).toNat ∧ ∀ l, l < i → (s.symAt l).toNat ≤ 2047 := by
  simp only [State.badSymbol, isSymbol, List.find?_range_eq_some]
  simp
  tauto

/-- Taking a fault ends the command in the latched state (R135). -/
theorem raise_eq (c : Cause) (info : BitVec 16) (i : Instr) (s : State) :
    raise c info i s = .next (s.latch c info (encode i)) := rfl

/-- Writing an operand register keeps both memories and everything but the register. -/
theorem State.writeOperand_frame (s : State) (val : Cell16) (x : OperandReg) :
    ∃ n k r m, s.writeOperand val x = (((s.withN n).withK k).withR r).withM m := by
  cases x
  · exact ⟨val.setWidth 13, s.k, s.r, s.m, rfl⟩
  · exact ⟨s.n, val.setWidth 12, s.r, s.m, rfl⟩
  · exact ⟨s.n, s.k, val.setWidth 4, s.m, rfl⟩
  · exact ⟨s.n, s.k, s.r, val.setWidth 1, rfl⟩
  · exact ⟨s.n, s.k, s.r, s.m, rfl⟩
  · exact ⟨s.n, s.k, s.r, s.m, rfl⟩

/-- The number of symbols is no more for a shorter buffer. -/
theorem symbolCount_mono {a b : Nat} (h : a ≤ b) : symbolCount a ≤ symbolCount b := by
  unfold symbolCount; omega

/-- A legal capacity has at most 2979 symbols, so a count fits `K`'s 12 bits (00_scope.md section 4). -/
theorem symbolCount_le {a : Nat} (h : a ≤ 4096) : symbolCount a ≤ 2979 := by
  unfold symbolCount; omega

end Sys2Proof.Machine
end

