-- ==== Sys2Proof/Laws/Exec.lean ====
section
/-! SUPPORT. What one command can do to a state, said once, and what one step adds. -/

namespace Sys2Proof.Machine

/-- A command ran to its end: the fault registers and the model's own fields are as before. -/
structure Completed (s t : State) : Prop where
  fault : t.fault = s.fault
  finfo : t.finfo = s.finfo
  fcmd : t.fcmd = s.fcmd
  cfg : t.cfg = s.cfg
  resets : t.resets = s.resets
  host : t.host = s.host

/-- Every command answers a next state: either it faulted, and only the fault registers were written with its own word
(R135), or it completed. -/
theorem exec_next (i : Instr) (s : State) :
    ∃ t, exec i s = .next t ∧ ((∃ c info, t = s.latch c info (encode i)) ∨ Completed s t) := by
  have done : ∀ t : State, exec i s = .next t → Completed s t →
      ∃ t, exec i s = .next t ∧ ((∃ c info, t = s.latch c info (encode i)) ∨ Completed s t) :=
    fun t h hc => ⟨t, h, .inr hc⟩
  have faulted : ∀ c info, exec i s = raise c info i s →
      ∃ t, exec i s = .next t ∧ ((∃ c info, t = s.latch c info (encode i)) ∨ Completed s t) :=
    fun c info h => ⟨_, h, .inl ⟨c, info, rfl⟩⟩
  cases i with
  | nop => exact done _ rfl ⟨rfl, rfl, rfl, rfl, rfl, rfl⟩
  | wrb idx val =>
    by_cases h : s.bmax ≤ idx.toNat
    · exact faulted _ _ (if_pos h)
    · exact done _ (if_neg h) ⟨rfl, rfl, rfl, rfl, rfl, rfl⟩
  | rdb idx =>
    by_cases h : s.bmax ≤ idx.toNat
    · exact faulted _ _ (if_pos h)
    · exact done _ (if_neg h) ⟨rfl, rfl, rfl, rfl, rfl, rfl⟩
  | wrs idx val =>
    by_cases h : s.smax ≤ idx.toNat
    · exact faulted _ _ (if_pos h)
    · exact done _ (if_neg h) ⟨rfl, rfl, rfl, rfl, rfl, rfl⟩
  | rds idx =>
    by_cases h : s.smax ≤ idx.toNat
    · exact faulted _ _ (if_pos h)
    · exact done _ (if_neg h) ⟨rfl, rfl, rfl, rfl, rfl, rfl⟩
  | setr reg val =>
    simp only [exec, execSetr] at done faulted ⊢
    cases hx : operandReg? reg with
    | none => simp only [hx] at faulted ⊢; exact faulted _ _ rfl
    | some x =>
      simp only [hx] at done faulted ⊢
      cases hm : s.operandMax? x with
      | none => simp only [hm] at faulted ⊢; exact faulted _ _ rfl
      | some max =>
        simp only [hm] at done faulted ⊢
        by_cases h : max < val.toNat
        · exact faulted _ _ (if_pos h)
        · obtain ⟨n, k, r, m, hw⟩ := s.writeOperand_frame val x
          exact done _ (if_neg h) (hw ▸ ⟨rfl, rfl, rfl, rfl, rfl, rfl⟩)
  | getr reg =>
    simp only [exec, execGetr] at done faulted ⊢
    cases hx : operandReg? reg with
    | none => simp only [hx] at faulted ⊢; exact faulted _ _ rfl
    | some x => simp only [hx] at done ⊢; exact done _ rfl ⟨rfl, rfl, rfl, rfl, rfl, rfl⟩
  | get11 idx => exact done _ rfl ⟨rfl, rfl, rfl, rfl, rfl, rfl⟩
  | put11 idx val =>
    by_cases h : isSymbol val = true
    · obtain ⟨b, hb⟩ := s.putSymbol_frame idx.toNat (val.setWidth 11)
      exact done _ (if_pos h) (hb ▸ ⟨rfl, rfl, rfl, rfl, rfl, rfl⟩)
    · exact faulted _ _ (if_neg h)
  | split => exact done _ rfl ⟨rfl, rfl, rfl, rfl, rfl, rfl⟩
  | join =>
    simp only [exec, execJoin] at done faulted ⊢
    cases hx : s.badSymbol with
    | none =>
      simp only [hx] at done ⊢
      obtain ⟨b, hb⟩ := s.zeroBuffer.putSymbols_frame s.k.toNat
      exact done _ rfl (hb ▸ ⟨rfl, rfl, rfl, rfl, rfl, rfl⟩)
    | some j => simp only [hx] at faulted ⊢; exact faulted _ _ rfl
  | shl11 => exact done _ rfl ⟨rfl, rfl, rfl, rfl, rfl, rfl⟩
  | enclen => exact done _ rfl ⟨rfl, rfl, rfl, rfl, rfl, rfl⟩
  | declen =>
    simp only [exec, execDeclen] at done faulted ⊢
    split
    · rename_i h; simp only [if_pos h] at faulted; exact faulted _ _ rfl
    · rename_i h
      simp only [if_neg h] at done faulted
      split
      · rename_i h'; simp only [if_pos h'] at faulted; exact faulted _ _ rfl
      · rename_i h'
        simp only [if_neg h'] at done faulted
        split
        · rename_i h2; simp only [if_pos h2] at faulted; exact faulted _ _ rfl
        · rename_i h2
          simp only [if_neg h2] at done
          refine done _ rfl ?_
          split <;> exact ⟨rfl, rfl, rfl, rfl, rfl, rfl⟩

/-- What a word does at the port: ignored while halted; else rejected at decode, or its command runs (R50, R55, R136). -/
theorem present_cases (cmd : Word) (s : State) :
    (s.fault ≠ 0#3 ∧ present cmd s = .next s) ∨
    (s.fault = 0#3 ∧ (∃ why, decode cmd = .illegal why) ∧
      present cmd s = .next (s.latch .illegalCommand 0#16 cmd)) ∨
    (s.fault = 0#3 ∧ ∃ i, decode cmd = .command i ∧ present cmd s = exec i s) := by
  unfold present
  by_cases hf : s.fault = 0#3
  · rw [if_neg (by simpa using hf)]
    cases hd : decode cmd with
    | command i => exact .inr (.inr ⟨hf, i, rfl, rfl⟩)
    | illegal why => exact .inr (.inl ⟨hf, ⟨why, rfl⟩, rfl⟩)
  · rw [if_pos hf]
    exact .inl ⟨hf, rfl⟩

/-- What a step does: nothing, a reset, or one word presented (R50, R156). -/
theorem step_cases (s : State) :
    (s.host = [] ∧ step s = .next s) ∨
    (∃ rest, s.host = .reset :: rest ∧ step s = .next (s.withHost rest).takeReset) ∨
    (∃ cmd rest, s.host = .command cmd :: rest ∧ step s = present cmd (s.withHost rest)) := by
  unfold step takeNextEvent
  cases hh : s.host with
  | nil => exact .inl ⟨rfl, rfl⟩
  | cons e rest =>
    cases e with
    | reset => exact .inr (.inl ⟨rest, rfl, rfl⟩)
    | command cmd => exact .inr (.inr ⟨cmd, rest, rfl, rfl⟩)

end Sys2Proof.Machine
end

