-- ==== Sys2Proof/Laws/PerInstr.lean ====
section
/-! SUPPORT. Facts about every command as syntax, one lemma per constructor of Instr. -/

namespace Sys2Proof.Laws

/-- The word of a well-formed command is selected by a row of the opcode map that makes that command of it (R54). -/
def OwnRow.Statement (i : Instr) : Prop :=
  i.WellFormed = true →
    ∃ row ∈ opcodeTable, row.selects (encode i) = true ∧ row.make (idxField (encode i)) (valField (encode i)) = i

/-- `row` is the row of `i`: it is in the map, its opcode and must-be-zero bits are those of the word, and it makes `i`. -/
theorem OwnRow.of_row {i : Instr} (row : Row) (hmem : row ∈ opcodeTable)
    (hop : opField (encode i) = opField row.pattern) (hidx : idxField (encode i) &&& row.format.idxMask = 0#12)
    (hval : valField (encode i) &&& row.format.valMask = 0#16)
    (hmake : row.make (idxField (encode i)) (valField (encode i)) = i) : OwnRow.Statement i :=
  fun _ => ⟨row, hmem, (selects_iff row hmem _).2 ⟨hop, hidx, hval⟩, hmake⟩

theorem OwnRow.nop : OwnRow.Statement .nop :=
  OwnRow.of_row (opcodeTable[0]'(by decide)) (List.getElem_mem _) (by simp [encode]; decide)
    (by simp [encode, Format.idxMask, opcodeTable])
    (by simp [encode, Format.valMask, opcodeTable]) (by simp [encode, opcodeTable])

/-- The high byte of `val` is zero exactly when the must-be-zero bits of format XB are (R53). -/
theorem highByte_zero {val : Cell16} : val.extractLsb' 8 8 = 0#8 ↔ val &&& 0xFF00#16 = 0#16 := by
  constructor
  · intro h
    refine BitVec.eq_of_getLsbD_eq fun b hb => ?_
    rw [BitVec.getLsbD_and, show (0xFF00#16) = BitVec.allOnes 8 ++ 0#8 by decide, BitVec.getLsbD_append,
      BitVec.getLsbD_allOnes]
    by_cases hlt : b < 8
    · simp [hlt]
    · have hz : (val.extractLsb' 8 8).getLsbD (b - 8) = false := by simp [h]
      rw [BitVec.getLsbD_extractLsb', show 8 + (b - 8) = b by omega] at hz
      simp only [show b - 8 < 8 by omega, decide_true, Bool.true_and] at hz
      simp [hz]
  · intro h
    refine BitVec.eq_of_getLsbD_eq fun b hb => ?_
    have hz : (val &&& 0xFF00#16).getLsbD (8 + b) = false := by simp [h]
    rw [BitVec.getLsbD_and, show (0xFF00#16) = BitVec.allOnes 8 ++ 0#8 by decide, BitVec.getLsbD_append,
      BitVec.getLsbD_allOnes] at hz
    simpa [hb, BitVec.getLsbD_extractLsb'] using hz

theorem OwnRow.wrb (idx : Idx) (val : Cell16) : OwnRow.Statement (.wrb idx val) := fun hwf =>
  OwnRow.of_row (opcodeTable[1]'(by decide)) (List.getElem_mem _) (by simp [encode]; decide)
    (by simp [encode, Format.idxMask, opcodeTable])
    (by simpa [encode, Format.valMask, opcodeTable] using highByte_zero.1 (by simpa [Instr.WellFormed] using hwf))
    (by simp [encode, opcodeTable]) hwf

theorem OwnRow.rdb (idx : Idx) : OwnRow.Statement (.rdb idx) :=
  OwnRow.of_row (opcodeTable[2]'(by decide)) (List.getElem_mem _) (by simp [encode]; decide)
    (by simp [encode, Format.idxMask, opcodeTable])
    (by simp [encode, Format.valMask, opcodeTable]) (by simp [encode, opcodeTable])

theorem OwnRow.wrs (idx : Idx) (val : Cell16) : OwnRow.Statement (.wrs idx val) :=
  OwnRow.of_row (opcodeTable[3]'(by decide)) (List.getElem_mem _) (by simp [encode]; decide)
    (by simp [encode, Format.idxMask, opcodeTable])
    (by simp [encode, Format.valMask, opcodeTable]) (by simp [encode, opcodeTable])

theorem OwnRow.rds (idx : Idx) : OwnRow.Statement (.rds idx) :=
  OwnRow.of_row (opcodeTable[4]'(by decide)) (List.getElem_mem _) (by simp [encode]; decide)
    (by simp [encode, Format.idxMask, opcodeTable])
    (by simp [encode, Format.valMask, opcodeTable]) (by simp [encode, opcodeTable])

theorem OwnRow.setr (reg : Idx) (val : Cell16) : OwnRow.Statement (.setr reg val) :=
  OwnRow.of_row (opcodeTable[5]'(by decide)) (List.getElem_mem _) (by simp [encode]; decide)
    (by simp [encode, Format.idxMask, opcodeTable])
    (by simp [encode, Format.valMask, opcodeTable]) (by simp [encode, opcodeTable])

theorem OwnRow.getr (reg : Idx) : OwnRow.Statement (.getr reg) :=
  OwnRow.of_row (opcodeTable[6]'(by decide)) (List.getElem_mem _) (by simp [encode]; decide)
    (by simp [encode, Format.idxMask, opcodeTable])
    (by simp [encode, Format.valMask, opcodeTable]) (by simp [encode, opcodeTable])

theorem OwnRow.get11 (idx : Idx) : OwnRow.Statement (.get11 idx) :=
  OwnRow.of_row (opcodeTable[7]'(by decide)) (List.getElem_mem _) (by simp [encode]; decide)
    (by simp [encode, Format.idxMask, opcodeTable])
    (by simp [encode, Format.valMask, opcodeTable]) (by simp [encode, opcodeTable])

theorem OwnRow.put11 (idx : Idx) (val : Cell16) : OwnRow.Statement (.put11 idx val) :=
  OwnRow.of_row (opcodeTable[8]'(by decide)) (List.getElem_mem _) (by simp [encode]; decide)
    (by simp [encode, Format.idxMask, opcodeTable])
    (by simp [encode, Format.valMask, opcodeTable]) (by simp [encode, opcodeTable])

theorem OwnRow.split : OwnRow.Statement .split :=
  OwnRow.of_row (opcodeTable[9]'(by decide)) (List.getElem_mem _) (by simp [encode]; decide)
    (by simp [encode, Format.idxMask, opcodeTable])
    (by simp [encode, Format.valMask, opcodeTable]) (by simp [encode, opcodeTable])

theorem OwnRow.join : OwnRow.Statement .join :=
  OwnRow.of_row (opcodeTable[10]'(by decide)) (List.getElem_mem _) (by simp [encode]; decide)
    (by simp [encode, Format.idxMask, opcodeTable])
    (by simp [encode, Format.valMask, opcodeTable]) (by simp [encode, opcodeTable])

theorem OwnRow.shl11 : OwnRow.Statement .shl11 :=
  OwnRow.of_row (opcodeTable[11]'(by decide)) (List.getElem_mem _) (by simp [encode]; decide)
    (by simp [encode, Format.idxMask, opcodeTable])
    (by simp [encode, Format.valMask, opcodeTable]) (by simp [encode, opcodeTable])

theorem OwnRow.enclen : OwnRow.Statement .enclen :=
  OwnRow.of_row (opcodeTable[12]'(by decide)) (List.getElem_mem _) (by simp [encode]; decide)
    (by simp [encode, Format.idxMask, opcodeTable])
    (by simp [encode, Format.valMask, opcodeTable]) (by simp [encode, opcodeTable])

theorem OwnRow.declen : OwnRow.Statement .declen :=
  OwnRow.of_row (opcodeTable[13]'(by decide)) (List.getElem_mem _) (by simp [encode]; decide)
    (by simp [encode, Format.idxMask, opcodeTable])
    (by simp [encode, Format.valMask, opcodeTable]) (by simp [encode, opcodeTable])

end Sys2Proof.Laws
end

