-- ==== Sys2Proof/Tests/Slice0.lean ====
section
/-! SUPPORT. The model's own tests. Expected values are those of spec/95_test_vectors.md (V1 to V12, P1 to P8) and of the
examples inside the rules, named at each test; nothing here was computed by the model. The last part shows, for each
statement with hypotheses, a concrete state and operands that meet them. -/

namespace Sys2Proof.Tests

open Sys2Proof.Machine

/-! ### Helpers -/

/-- The state a step or a command answers, if it answers one. -/
def next? (o : Host.Outcome State Machine.Fault Refusal) : Option State :=
  match o with
  | .next s => some s
  | .fault _ => none
  | .refused _ => none

/-- The reset state with a ByteBuffer handed over. -/
def bytes (bs : List Byte) : State :=
  { State.reset with buf := bs.zipIdx.map (fun p => (p.2, p.1)), n := BitVec.ofNat 13 bs.length }

/-- The reset state with a symbol sequence handed over. -/
def cells (vs : List Cell16) : State :=
  { State.reset with sym := vs.zipIdx.map (fun p => (p.2, p.1)), k := BitVec.ofNat 12 vs.length }

/-- The reset state of a block of another capacity. -/
def capacity (b : Nat) : State := { State.reset with cfg := { bmax := b } }

/-- What `BUF` lists after a command. -/
def bufAfter (i : Instr) (s : State) : Option (List Byte) := (next? (exec i s)).map (fun t => t.buf.map Prod.snd)

/-- What `SYM` lists after a command. -/
def symAfter (i : Instr) (s : State) : Option (List Cell16) := (next? (exec i s)).map (fun t => t.sym.map Prod.snd)

/-- `OUT` after a command. -/
def outAfter (i : Instr) (s : State) : Option (BitVec 16) := (next? (exec i s)).map State.out

/-- The fault registers after a command. -/
def faultAfter (i : Instr) (s : State) : Option (BitVec 3 × BitVec 16 × Word) :=
  (next? (exec i s)).map (fun t => (t.fault, t.finfo, t.fcmd))

/-- Buffer A of V5, the bytes of V1. -/
def bufferA : State :=
  bytes [0x31#8, 0x32#8, 0x33#8, 0x34#8, 0x35#8, 0x36#8, 0x37#8, 0x38#8, 0x39#8, 0x30#8, 0x31#8]

/-- The symbols of buffer A (41_bitgrouper.md R86, its example). -/
def symbolsA : List Cell16 := [0x189#16, 0x48C#16, 0x668#16, 0x353#16, 0x31B#16, 0x4E0#16, 0x726#16, 0x031#16]

/-! ### Well-formedness: the one check refuses an ill-formed term -/

/-- 30_encoding.md R57: WRB with `val[15:8] = 1` has no legal word; `0x10000100` is the rule's example. -/
theorem test_wellFormed_refuses_wrb_high_byte :
    (Instr.wrb 0#12 0x100#16).WellFormed = false ∧ encode (.wrb 0#12 0x100#16) = 0x10000100#32 ∧
      decode 0x10000100#32 = .illegal .mustBeZero := by decide

theorem test_wellFormed_accepts_wrb_byte : (Instr.wrb 4095#12 0xFF#16).WellFormed = true := by decide

/-! ### Decoding: one word per command, written from R51 and R54 -/

theorem test_decode_nop : decode 0b0000_000000000000_0000000000000000#32 = .command .nop := by decide

theorem test_decode_wrb : decode 0b0001_000000000101_0000000000110110#32 = .command (.wrb 5#12 0x36#16) := by decide

theorem test_decode_rdb : decode 0b0010_000000000001_0000000000000000#32 = .command (.rdb 1#12) := by decide

theorem test_decode_wrs : decode 0b0011_000000000010_1000000000000001#32 = .command (.wrs 2#12 0x8001#16) := by decide

theorem test_decode_rds : decode 0b0100_101110100010_0000000000000000#32 = .command (.rds 2978#12) := by decide

theorem test_decode_setr : decode 0b0101_000000000011_0000000000000001#32 = .command (.setr 3#12 1#16) := by decide

theorem test_decode_getr : decode 0b0110_000000000101_0000000000000000#32 = .command (.getr 5#12) := by decide

theorem test_decode_get11 : decode 0b0111_111111111111_0000000000000000#32 = .command (.get11 4095#12) := by decide

theorem test_decode_put11 : decode 0b1000_000000000001_0000011111111111#32 = .command (.put11 1#12 0x7FF#16) := by
  decide

theorem test_decode_split : decode 0b1001_000000000000_0000000000000000#32 = .command .split := by decide

theorem test_decode_join : decode 0b1010_000000000000_0000000000000000#32 = .command .join := by decide

theorem test_decode_shl11 : decode 0b1011_000000000000_0000000000000000#32 = .command .shl11 := by decide

theorem test_decode_enclen : decode 0b1100_000000000000_0000000000000000#32 = .command .enclen := by decide

theorem test_decode_declen : decode 0b1101_000000000000_0000000000000000#32 = .command .declen := by decide

/-- R56 and R57, the rules' examples. -/
theorem test_decode_illegal :
    decode 0xE0000000#32 = .illegal .reservedOpcode ∧ decode 0xFFFFFFFF#32 = .illegal .reservedOpcode ∧
      decode 0x00000001#32 = .illegal .mustBeZero ∧ decode 0x90010000#32 = .illegal .mustBeZero ∧
      decode 0x20050001#32 = .illegal .mustBeZero := by decide

theorem test_decodeTableWord :
    decodeTableWord 32 0x800107FF = some (.put11 1#12 0x7FF#16) ∧ decodeTableWord 32 0xE0000000 = none := by decide

/-! ### One step of each command -/

/-- R70. -/
theorem test_nop : exec .nop bufferA = .next bufferA := by rfl

/-- R71, its example. -/
theorem test_wrb : bufAfter (.wrb 5#12 0x36#16) State.reset = some [0x36#8] := by decide

/-- R131, with `BMAX = 7`. -/
theorem test_wrb_range : faultAfter (.wrb 7#12 0x36#16) (capacity 7) = some (4#3, 0#16, 0x10070036#32) := by decide

/-- R72, its example. -/
theorem test_rdb : outAfter (.rdb 1#12) (bytes [0xFF#8, 0xBF#8]) = some 0x00BF#16 := by decide

theorem test_rdb_range : faultAfter (.rdb 7#12) (capacity 7) = some (4#3, 0#16, 0x20070000#32) := by decide

/-- R73: a value above 2047 is stored. -/
theorem test_wrs : symAfter (.wrs 1#12 0x800#16) (cells [0xAB#16]) = some [0xAB#16, 0x800#16] := by decide

/-- `BMAX = 4096` gives `SMAX = 2979` (00_scope.md section 4). -/
theorem test_wrs_range : faultAfter (.wrs 2979#12 1#16) State.reset = some (4#3, 0#16, 0x3BA30001#32) := by decide

/-- R74, its example, from P1. -/
theorem test_rds : outAfter (.rds 7#12) (cells symbolsA) = some 0x0031#16 := by decide

theorem test_rds_range : faultAfter (.rds 6#12) (capacity 7) = some (4#3, 0#16, 0x40060000#32) := by decide

/-- R75: the bound is inclusive, and the example. -/
theorem test_setr :
    (next? (exec (.setr 0#12 4096#16) State.reset)).map State.n = some 4096#13 ∧
      (next? (exec (.setr 2#12 15#16) State.reset)).map State.r = some 15#4 := by decide

/-- R131: a value out of range, and a read-only constant. -/
theorem test_setr_faults :
    faultAfter (.setr 3#12 2#16) State.reset = some (4#3, 0#16, 0x50030002#32) ∧
      faultAfter (.setr 4#12 0#16) State.reset = some (3#3, 0#16, 0x50040000#32) := by decide

/-- R76 and 00_scope.md section 4: `SMAX = 2979`. -/
theorem test_getr : outAfter (.getr 5#12) State.reset = some 2979#16 := by decide

theorem test_getr_reserved : faultAfter (.getr 6#12) State.reset = some (3#3, 0#16, 0x60060000#32) := by decide

/-- V5, buffer A, every `bit_shift`. -/
theorem test_get11 :
    (List.range 10).map (fun i => outAfter (.get11 (BitVec.ofNat 12 i)) bufferA) =
      [0x189#16, 0x48C#16, 0x668#16, 0x353#16, 0x31B#16, 0x4E0#16, 0x726#16, 0x031#16, 0#16, 0#16].map some := by
  decide

/-- V5: the zero extension at the end, `N = 3`, all `0xFF`. -/
theorem test_get11_end : outAfter (.get11 2#12) (bytes [0xFF#8, 0xFF#8, 0xFF#8]) = some 0x600#16 := by decide

/-- V2, the source's write-back vector. -/
theorem test_put11 :
    bufAfter (.put11 1#12 0x7FF#16) (bytes [0xFF#8, 0xA0#8, 0x00#8]) = some [0xFF#8, 0xBF#8, 0xFC#8] := by decide

/-- V6: replacement in three cells, and the fault. -/
theorem test_put11_three_cells :
    bufAfter (.put11 2#12 0x555#16) (bytes [0xA5#8, 0xA5#8, 0xA5#8, 0xA5#8, 0xA5#8]) =
      some [0xA5#8, 0xA5#8, 0xA6#8, 0xAA#8, 0xA5#8] ∧
    faultAfter (.put11 1#12 0x800#16) (bytes [0xFF#8, 0xA0#8, 0x00#8]) = some (1#3, 1#16, 0x80010800#32) := by decide

/-- P1. -/
theorem test_split : symAfter .split bufferA = some symbolsA := by decide

/-- V8: `SYM[K ..]` is left as it was. -/
theorem test_split_keeps_the_rest :
    symAfter .split { cells [1#16, 2#16, 3#16] with buf := [(0, 0xFF#8)], n := 1#13 } =
      some [0x7F8#16, 2#16, 3#16] := by decide

/-- P2b: three symbols to three bytes. -/
theorem test_join :
    bufAfter .join { cells [0x6F5#16, 0x36F#16, 0x5DE#16] with n := 3#13 } = some [0xDE#8, 0xAD#8, 0xBE#8] := by
  decide

/-- P4, step 10. -/
theorem test_join_fault :
    faultAfter .join (cells [0x0AB#16, 0x800#16]) = some (1#3, 1#16, 0xA0000000#32) := by decide

/-- V1, the source's vector. -/
theorem test_shl11 :
    bufAfter .shl11 bufferA =
      some [0x91#8, 0x99#8, 0xA1#8, 0xA9#8, 0xB1#8, 0xB9#8, 0xC1#8, 0xC9#8, 0x81#8, 0x88#8, 0x00#8] := by decide

/-- V7: the cells at or above `N` are not touched. -/
theorem test_shl11_above_n :
    bufAfter .shl11 { bytes [1#8, 2#8, 3#8, 4#8] with n := 2#13 } = some [0x10#8, 0#8, 3#8, 4#8] := by decide

/-- R101, its example, and V8 at full capacity. -/
theorem test_enclen :
    (next? (exec .enclen { State.reset with n := 4#13 })).map (fun t => (t.k, t.r, t.m)) = some (3#12, 10#4, 1#1) ∧
      (next? (exec .enclen { State.reset with n := 4096#13 })).map (fun t => (t.k, t.r, t.m)) =
        some (2979#12, 10#4, 1#1) := by decide

/-- V10: `K = 3, R = 2`; and `K = 2, M = 0, R = 13`, where `R` is cleared. -/
theorem test_declen :
    (next? (exec .declen { State.reset with k := 3#12, m := 1#1, r := 2#4 })).map State.n = some 3#13 ∧
      (next? (exec .declen { State.reset with k := 2#12, r := 13#4 })).map (fun t => (t.n, t.r)) =
        some (2#13, 0#4) := by decide

/-- V10: the three faults, `BMAX = 7` the last. -/
theorem test_declen_faults :
    faultAfter .declen { State.reset with k := 2#12, m := 1#1, r := 11#4 } = some (2#3, 11#16, 0xD0000000#32) ∧
      faultAfter .declen { State.reset with m := 1#1, r := 8#4 } = some (2#3, 8#16, 0xD0000000#32) ∧
      faultAfter .declen { capacity 7 with k := 6#12 } = some (4#3, 0#16, 0xD0000000#32) := by decide

/-! ### The step, the halt, reset, the texts -/

/-- A word placed as the next move is the command the step runs. -/
theorem test_withFetchWord :
    (next? (step (State.reset.withFetchWord 32 0x10050036))).map State.buf = some [(5, 0x36#8)] := by decide

/-- P4, step 14: a halted block ignores a reserved word. -/
theorem test_halted_ignores_words :
    (next? (step { State.reset with fault := 1#3, host := [.command 0xE0000000#32] })).map State.fault = some 1#3 := by
  decide

/-- P8: the latched state, then reset clears it. -/
theorem test_reset_event :
    (next? (step { State.reset with fault := 2#3, finfo := 8#16, n := 5#13, host := [.reset] })).map
      (fun t => (t.fault, t.finfo, t.n, t.host)) = some (0#3, 0#16, 0#13, []) := by decide

/-- R60: the example with a register name; a comment; a mnemonic that does not exist. -/
theorem test_assembler :
    assembleWords? "SETR N, 11 ; the length" = some [0x5000000B#32] ∧ assembleWords? "; nothing" = some [] ∧
      assembleWords? "HALT" = none := by decide +kernel

/-- P6, step 1: LOADB. -/
theorem test_assembler_loadb :
    assembleWords? "LOADB 0x12, 0x34" = some [0x50000002#32, 0x10000012#32, 0x10010034#32] := by decide +kernel

/-! ### Witnesses: for each statement with hypotheses, a state and operands that meet them -/

/-- `s` with one host event ahead. -/
def ahead (e : HostEvent) (s : State) : State := { s with host := [e] }

/-- A halted state of a run, as in P4. -/
def halted : State := { State.reset with fault := 1#3, finfo := 1#16, fcmd := 0xA0000000#32 }

/-- Three symbols with descriptor 10 and marker, as in P2 before DECLEN. -/
def threeSymbols : State := { cells [0x6F5#16, 0x36F#16, 0x5DE#16] with m := 1#1, r := 10#4 }

theorem witness_DecodeOfEncodeIsTheCommand :
    (Instr.wrb 4095#12 0xFF#16).WellFormed = true ∧ (Instr.put11 4095#12 0xFFFF#16).WellFormed = true := by decide

theorem witness_EncodeOfDecodeIsTheWord : decode 0x800107FF#32 = .command (.put11 1#12 0x7FF#16) := by decide

theorem witness_AtMostOneRowSelectsAWord :
    ∃ row, row ∈ opcodeTable ∧ row.selects 0x800107FF#32 = true := by
  have h : (opcodeTable.find? (fun row => row.selects 0x800107FF#32)).isSome = true := by decide
  obtain ⟨row, hr⟩ := Option.isSome_iff_exists.1 h
  exact ⟨row, List.mem_of_find?_eq_some hr, List.find?_some (p := fun row : Row => row.selects 0x800107FF#32) hr⟩

/-- One word of each way of being illegal, at the edges of the fields (R56, R57), before a running block. -/
theorem witness_IllegalWordsLatchIllegalCommand :
    [0xE0000000#32, 0xFFFFFFFF#32, 0x00000001#32, 0x90010000#32, 0xD8000000#32, 0x20050001#32, 0x7FFF8000#32,
      0x10000100#32, 0x1FFF8000#32].all (fun w =>
        decide (decode w = .illegal (illegalReason w)) && decide ((ahead (.command w) State.reset).fault = 0#3)) = true ∧
      decode 0x1FFF00FF#32 = .command (.wrb 4095#12 0xFF#16) := by decide

theorem witness_StepRunsTheDecodedCommand :
    (ahead (.command 0xB0000000#32) bufferA).host = .command 0xB0000000#32 :: [] ∧
      (ahead (.command 0xB0000000#32) bufferA).fault = 0#3 ∧ decode 0xB0000000#32 = .command .shl11 := by decide

theorem witness_StepWithNothingPresentedIsIdle : bufferA.host = [] := by decide

theorem witness_HaltedBlockIgnoresEveryWord : halted.fault ≠ 0#3 := by decide

theorem witness_ResetEventClearsRegisters : (ahead .reset threeSymbols).host = .reset :: [] := by decide

/-- A run of three words whose second is reserved. -/
theorem witness_WrongRunsEndAtTheirFaultingWord :
    bufferA.fault = 0#3 ∧
      ∃ t, presentAll bufferA [0xC0000000#32, 0xE0000000#32, 0x90000000#32] = .next t ∧ t.fault ≠ 0#3 :=
  ⟨by decide, _, rfl, by decide⟩

theorem witness_OnlyResetLeavesTheHaltedState :
    (ahead .reset halted).fault ≠ 0#3 ∧ ∃ t, step (ahead .reset halted) = .next t ∧ t.fault = 0#3 :=
  ⟨by decide, _, rfl, by decide⟩

theorem witness_StepKeepsTheInvariant :
    StateInv (ahead (.command 0x90000000#32) bufferA) ∧
      ∃ t, step (ahead (.command 0x90000000#32) bufferA) = .next t := ⟨by decide, _, rfl⟩

theorem witness_NoStepChangesTheParameters : ∃ t, step (ahead .reset (capacity 7)) = .next t := ⟨_, rfl⟩

/-- One word for each row of R131's table, at the edge of its condition, and a word that faults under none. -/
theorem witness_WordsFaultExactlyAsListed :
    WordFaults 0x80050800#32 State.reset .invalidSymbol 5#16 ∧
    WordFaults 0xA0000000#32 (cells [0x7FF#16, 0x800#16]) .invalidSymbol 1#16 ∧
    WordFaults 0xD0000000#32 { threeSymbols with r := 11#4 } .malformedPadding 11#16 ∧
    WordFaults 0xD0000000#32 { threeSymbols with k := 0#12 } .malformedPadding 10#16 ∧
    WordFaults 0xE0000000#32 State.reset .illegalCommand 0#16 ∧
    WordFaults 0x50040000#32 State.reset .illegalCommand 0#16 ∧
    WordFaults 0x60060000#32 State.reset .illegalCommand 0#16 ∧
    WordFaults 0x20070000#32 (capacity 7) .operandRange 0#16 ∧
    WordFaults 0x3BA30000#32 State.reset .operandRange 0#16 ∧
    WordFaults 0x50001001#32 State.reset .operandRange 0#16 ∧
    WordFaults 0xD0000000#32 { capacity 7 with k := 6#12 } .operandRange 0#16 ∧
    ∀ c info, ¬ WordFaults 0x90000000#32 bufferA c info := by
  refine ⟨⟨rfl, by decide, by decide⟩, ⟨rfl, 1, by decide, by decide, by decide, by decide⟩, .inl ⟨rfl, by decide⟩,
    .inl ⟨rfl, by decide⟩, ⟨rfl, rfl⟩, .inl ⟨rfl, rfl, by decide⟩, ⟨rfl, rfl, by decide⟩, ⟨rfl, rfl, by decide⟩,
    ⟨rfl, rfl, by decide⟩, .inr ⟨rfl, rfl, by decide⟩, .inr ⟨rfl, rfl, by decide, by decide⟩, fun _ _ h => h⟩

theorem witness_FaultsArePrecise :
    ∃ t, step (ahead (.command 0xE0000000#32) bufferA) = .next t ∧ t.fault ≠ 0#3 := ⟨_, rfl, by decide⟩

theorem witness_OutIsWrittenOnlyByReadCommands :
    (∃ t, exec (.rdb 1#12) bufferA = .next t ∧ t.out ≠ bufferA.out) ∧
      CommandFaults (.rdb 7#12) (capacity 7) .operandRange 0#16 :=
  ⟨⟨_, rfl, by decide⟩, rfl, rfl, by decide⟩

theorem witness_OperandRegistersHaveListedWriters :
    ∃ t, exec .declen threeSymbols = .next t ∧ t.n ≠ threeSymbols.n := ⟨_, rfl, by decide⟩

theorem witness_MemoryCellsHaveListedWriters :
    ∃ t, exec .shl11 bufferA = .next t ∧ t.byteAt 0 ≠ bufferA.byteAt 0 := ⟨_, rfl, by decide⟩

theorem witness_NopChangesNothing : (0x00000001#32).extractLsb' 28 4 = 0#4 ∧ 0x00000001#32 ≠ 0#32 := by decide

/-- WRB, RDB and their pairs: the last cell and the first index beyond it; the default capacity takes every index. -/
theorem witness_byte_index :
    (6#12).toNat < (capacity 7).bmax ∧ (capacity 7).bmax ≤ (7#12).toNat ∧ (4095#12).toNat < State.reset.bmax := by decide

/-- WRS, RDS and their pairs. -/
theorem witness_cell_index :
    (5#12).toNat < (capacity 7).smax ∧ (capacity 7).smax ≤ (6#12).toNat ∧ (2978#12).toNat < State.reset.smax ∧
      State.reset.smax ≤ (2979#12).toNat := by decide

/-- Each clause at the largest value in range and the smallest out of range. -/
theorem witness_SetrWritesTheNamedRegister :
    State.reset.cfg.Legal ∧ (4096#16).toNat ≤ State.reset.bmax ∧ State.reset.bmax < (4097#16).toNat ∧
      (2979#16).toNat ≤ State.reset.smax ∧ State.reset.smax < (2980#16).toNat ∧ (15#16).toNat ≤ 15 ∧
      15 < (16#16).toNat ∧ (1#16).toNat ≤ 1 ∧ 1 < (2#16).toNat ∧ 4 ≤ (4#12).toNat ∧ 4 ≤ (4095#12).toNat := by decide

theorem witness_GetrReadsTheNamedRegister :
    [0, 1, 2, 3, 4, 5].map (fun r => (BitVec.ofNat 12 r).toNat) = [0, 1, 2, 3, 4, 5] ∧ 6 ≤ (6#12).toNat ∧
      6 ≤ (4095#12).toNat := by decide

theorem witness_ReadsReturnTheLatestWrite :
    State.reset.cfg.Legal ∧ State.reset.fault = 0#3 ∧
      (∃ t, exec (.setr 0#12 4096#16) State.reset = .next t ∧ t.fault = 0#3) ∧
      operandReg? 5#12 = some .caps ∧ operandReg? 1#12 = some .k ∧ 5#12 ≠ 0#12 ∧ 1#12 ≠ 0#12 :=
  ⟨by decide, by decide, ⟨_, rfl, by decide⟩, by decide, by decide, by decide, by decide⟩

/-- An index at the end of the buffer and the first beyond it (V5, `N = 3`). -/
theorem witness_Get11ExtractsTheWindowField :
    (8 * (bytes [0xFF#8, 0xFF#8, 0xFF#8]).n.toNat + 10) / 11 ≤ (3#12).toNat := by decide

theorem witness_Put11ReplacesTheField : (2047#16).toNat ≤ 2047 ∧ 2047 < (2048#16).toNat := by decide

/-- V6, `N = 1, i = 0`: three bits are dropped, so `0x7FF` and `0x7F8` agree where it counts. -/
theorem witness_Put11KeepsNeighboursAndDropsTheTail :
    (0x7FF#16).toNat ≤ 2047 ∧ (0x7F8#16).toNat ≤ 2047 ∧
      ∀ b, b < 11 → 11 * (0#12).toNat + b < 8 * (bytes [0#8]).n.toNat →
        (0x7F8#16).getLsbD (10 - b) = (0x7FF#16).getLsbD (10 - b) := by decide

/-- The last symbol of an 11-byte buffer ends at its last bit. -/
theorem witness_GetAfterPutReturnsTheSymbol :
    (0x7FF#16).toNat ≤ 2047 ∧ 11 * (7#12).toNat + 11 ≤ 8 * bufferA.n.toNat := by decide

theorem witness_Shl11ShiftsTheBuffer :
    10 < bufferA.n.toNat ∧ bufferA.n.toNat ≤ 11 ∧ 87 < 8 * bufferA.n.toNat := by decide

theorem witness_ShiftingBringsEachSymbolToTheFront : bufferA.fault = 0#3 := by decide

/-- The premise of SPLIT, ENCLEN and the round trip: an empty, a partly filled and a full length. -/
theorem witness_StateInv :
    StateInv State.reset ∧ StateInv bufferA ∧ StateInv threeSymbols ∧ StateInv { State.reset with n := 4096#13 } ∧
      StateInv { capacity 1 with n := 1#13 } := by decide

/-- The lengths that share a symbol count (R87 (e)) and the empty one. -/
theorem witness_SplitLaws :
    ∀ n ∈ [0#13, 3#13, 4#13, 7#13, 8#13, 10#13, 11#13], StateInv (State.reset.withN n) := by
  intro n hn
  simp only [List.mem_cons, List.not_mem_nil, or_false] at hn
  rcases hn with rfl | rfl | rfl | rfl | rfl | rfl | rfl <;> decide

/-- JOIN and the symbols after it: cells that are all symbols, and cells whose second is the first that is none. -/
theorem witness_JoinWritesTheBytes :
    (∀ i, i < threeSymbols.k.toNat → (threeSymbols.symAt i).toNat ≤ 2047) ∧
      1 < (cells [0x7FF#16, 0x800#16]).k.toNat ∧ 2047 < ((cells [0x7FF#16, 0x800#16]).symAt 1).toNat ∧
      ∀ l, l < 1 → ((cells [0x7FF#16, 0x800#16]).symAt l).toNat ≤ 2047 := by decide

/-- A state on each side of the equivalence: the symbols of four bytes with `N = 4`, and with `N = 3`. -/
theorem witness_SplitAfterJoinReproducesExactly :
    StateInv { threeSymbols with n := 4#13 } ∧ StateInv { threeSymbols with n := 3#13 } ∧
      (∀ i, i < 3 → (threeSymbols.symAt i).toNat ≤ 2047) ∧
      (threeSymbols.symAt 2).toNat % 2 ^ (11 * 3 - 8 * 4) = 0 ∧
      (threeSymbols.symAt 2).toNat % 2 ^ (11 * 3 - 8 * 3) ≠ 0 := by decide

theorem witness_FieldMasksAreTheListedOnes :
    [0, 3, 6, 1, 4, 7, 2, 5].map bitShift = [0, 1, 2, 3, 4, 5, 6, 7] := by decide

/-- Each clause at its edges: `R` of 0 and 11, no symbol, `R` of 1 and 10, a length of `BMAX` and one beyond. -/
theorem witness_DeclenComputesTheLength :
    threeSymbols.cfg.Legal ∧ threeSymbols.m = 1#1 ∧ (0#4).toNat < 1 ∧ 10 < (11#4).toNat ∧
      ¬ ((1#4).toNat < 1 ∨ 10 < (1#4).toNat) ∧ ¬ (threeSymbols.r.toNat < 1 ∨ 10 < threeSymbols.r.toNat) ∧
      { threeSymbols with k := 0#12 }.k = 0#12 ∧ threeSymbols.k ≠ 0#12 ∧
      (capacity 7).cfg.Legal ∧ { capacity 7 with k := 6#12 }.declenValue = 8 ∧
      { State.reset with k := 2979#12 }.declenValue = State.reset.bmax := by decide

/-- R104, its example: `K = 3` with the marker and 2 or 10 bits; and the length 3 that gives the first. -/
theorem witness_CanonicalTriplesAreThoseOfSomeLength :
    (dataBits 3 true 2 % 8 = 0 ∧ dataBits 3 true 10 % 8 = 0 ∧ dataBits 3 true 3 % 8 ≠ 0) ∧ symbolCount 3 = 3 ∧
      marker 3 = 1#1 ∧ descriptor 3 = 2 := by decide

/-- V8, `N = 4`: another block's state that was handed the three symbols, the marker and the descriptor. -/
theorem witness_DecodingWhatWasEncodedRestoresTheBytes :
    let s := bytes [0xDE#8, 0xAD#8, 0xBE#8, 0xEF#8]
    StateInv s ∧ ∃ t t', exec .enclen s = .next t ∧ exec .split t = .next t' ∧ threeSymbols.cfg = s.cfg ∧
      threeSymbols.k = t'.k ∧ threeSymbols.m = t'.m ∧ threeSymbols.r = t'.r ∧
      ∀ i, i < t'.k.toNat → threeSymbols.symAt i = t'.symAt i :=
  ⟨by decide, _, _, rfl, rfl, by decide, by decide, by decide, by decide, by decide⟩

/-- Two states that agree on the cells 1 to 3 of symbol 1's window, below N, and differ in a cell outside it; and a cell
that JOIN faults on. -/
theorem witness_ResultsDependOnNamedInputsOnly_cells :
    let s := bytes [1#8, 2#8, 3#8, 4#8]
    let s' := bytes [9#8, 2#8, 3#8, 4#8]
    (s.byteAt 0 ≠ s'.byteAt 0 ∧ s.n = s'.n ∧ 11 * (1#12).toNat / 8 = 1 ∧ (∀ j ∈ [1, 2, 3], s.byteAt j = s'.byteAt j)) ∧
      2047 < (2048#16).toNat ∧ 1 < (cells [0x7FF#16, 0x800#16]).k.toNat ∧
      2047 < ((cells [0x7FF#16, 0x800#16]).symAt 1).toNat := by
  decide

/-- Two states that agree on the named inputs and differ elsewhere. -/
theorem witness_ResultsDependOnNamedInputsOnly :
    let s := bufferA
    let s' := { bufferA with k := 5#12, out := 9#16 }
    (s ≠ s' ∧ s.n = s'.n ∧ ∀ j, j < s.n.toNat → s.byteAt j = s'.byteAt j) ∧
      (threeSymbols.fault = 0#3 ∧ bytes [1#8] ≠ State.reset ∧ (bytes [1#8]).k = State.reset.k ∧
        (bytes [1#8]).m = State.reset.m ∧ (bytes [1#8]).r = State.reset.r ∧ (bytes [1#8]).cfg = State.reset.cfg) ∧
      ∀ i, i < threeSymbols.k.toNat →
        threeSymbols.symAt i = { threeSymbols with r := 1#4 }.symAt i ∧ (threeSymbols.symAt i).toNat ≤ 2047 := by
  decide

theorem witness_RepeatingACommandChangesNothingMore :
    StateInv threeSymbols ∧ Instr.declen ≠ .shl11 ∧ ∃ t, exec .declen threeSymbols = .next t :=
  ⟨by decide, by decide, _, rfl⟩

theorem witness_WrittenInputsMakeResultsDefinite :
    InputsWritten .split bufferA = true ∧ InputsWritten .join threeSymbols = true ∧
      InputsWritten (.get11 7#12) bufferA = true ∧ InputsWritten (.rdb 11#12) bufferA = false ∧
      ∃ t, exec .split bufferA = .next t := ⟨by decide, by decide, by decide, by decide, _, rfl⟩

/-- The longest lists that `idx` can reach, and the first length that it cannot. -/
theorem witness_PseudoCommandsExpandAsListed :
    (Pseudo.loadb (List.replicate 4096 0xFF#8)).wellFormed = true ∧
      (Pseudo.loads (List.replicate 4096 1#16)).wellFormed = true ∧ (Pseudo.loadb []).wellFormed = true ∧
      (Pseudo.loads []).wellFormed = true ∧ (Pseudo.loadb (List.replicate 4097 0xFF#8)).wellFormed = false := by
  simp only [Pseudo.wellFormed, List.length_replicate, List.length_nil]
  decide

/-- The empty list and a list as long as the capacity. -/
theorem witness_LoadsHandOverTheirOperands :
    (capacity 1).fault = 0#3 ∧ (capacity 1).cfg.Legal ∧ ([] : List Byte).length ≤ (capacity 1).bmax ∧
      [0xFF#8].length = (capacity 1).bmax ∧ [0x7F8#16].length = (capacity 1).smax := by decide

end Sys2Proof.Tests
end

/-! ## The output register (10_state.md R20) -/

section

namespace Sys2Proof.Machine

/-! ### What ignores OUT -/

@[simp] theorem State.withOut_withOut (s : State) (u v : BitVec 16) : (s.withOut u).withOut v = s.withOut v := rfl

@[simp] theorem State.operandMax?_withOut (s : State) (v : BitVec 16) (x : OperandReg) :
    (s.withOut v).operandMax? x = s.operandMax? x := by cases x <;> rfl

@[simp] theorem State.operandValue_withOut (s : State) (v : BitVec 16) (x : OperandReg) :
    (s.withOut v).operandValue x = s.operandValue x := by cases x <;> rfl

@[simp] theorem State.writeOperand_withOut (s : State) (v : BitVec 16) (val : Cell16) (x : OperandReg) :
    (s.withOut v).writeOperand val x = (s.writeOperand val x).withOut v := by cases x <;> rfl

@[simp] theorem State.badSymbol_withOut (s : State) (v : BitVec 16) : (s.withOut v).badSymbol = s.badSymbol := rfl

@[simp] theorem State.zeroBuffer_withOut (s : State) (v : BitVec 16) :
    (s.withOut v).zeroBuffer = s.zeroBuffer.withOut v := rfl

@[simp] theorem State.putCell_withOut (s : State) (v : BitVec 16) (i : Nat) (x : Symbol) (t : Nat) :
    (s.withOut v).putCell i x t = (s.putCell i x t).withOut v := by
  exact (apply_ite (State.withOut · v) (firstCell i + t < s.n.toNat ∧ windowCell (fieldMask i) t ≠ 0#8)
    (s.writeByte (firstCell i + t) (maskedByte (s.byteAt (firstCell i + t)) i x t)) s).symm

@[simp] theorem State.putSymbol_withOut (s : State) (v : BitVec 16) (i : Nat) (x : Symbol) :
    (s.withOut v).putSymbol i x = (s.putSymbol i x).withOut v := by
  simp only [State.putSymbol, State.putCell_withOut]

@[simp] theorem State.putSymbols_withOut (s : State) (v : BitVec 16) (count : Nat) :
    (s.withOut v).putSymbols count = (s.putSymbols count).withOut v := by
  induction count with
  | zero => rfl
  | succ count ih => simp only [State.putSymbols, ih, State.symAt_withOut, State.putSymbol_withOut]

/-- The register numbers from 6 on are reserved (R17). -/
theorem operandReg?_of_reserved {reg : Idx} (h : 6 ≤ reg.toNat) : operandReg? reg = none := by
  unfold operandReg?
  split
  case h_7 => rfl
  all_goals omega

/-! ### A command passes OUT on or delivers a value into it -/

/-- In `s` the command hands OUT on, whatever it is, and the rest of its answer does not depend on it. -/
def PassesOut (i : Instr) (s : State) : Prop := ∃ t : State, ∀ v, exec i (s.withOut v) = .next (t.withOut v)

/-- The read commands that complete in `s`, each with the value it delivers (R20). -/
inductive Delivers (s : State) : Instr → BitVec 16 → Prop where
  | rdb {idx : Idx} : idx.toNat < s.bmax → Delivers s (.rdb idx) ((s.byteAt idx.toNat).setWidth 16)
  | rds {idx : Idx} : idx.toNat < s.smax → Delivers s (.rds idx) (s.symAt idx.toNat)
  | getr {reg : Idx} {x : OperandReg} : operandReg? reg = some x → Delivers s (.getr reg) (s.operandValue x)
  | get11 (idx : Idx) : Delivers s (.get11 idx) ((s.symbol idx.toNat).setWidth 16)

/-- A read command that delivers a value meets no fault condition (R131). -/
theorem Delivers.not_commandFaults {s : State} {i : Instr} {o : BitVec 16} (h : Delivers s i o) (c : Cause)
    (info : BitVec 16) : ¬ CommandFaults i s c info := by
  cases h with
  | rdb hlt => exact fun ⟨_, _, hge⟩ => absurd hge (Nat.not_le.2 hlt)
  | rds hlt => exact fun ⟨_, _, hge⟩ => absurd hge (Nat.not_le.2 hlt)
  | getr hx =>
    rintro ⟨_, _, hge⟩
    simp [operandReg?_of_reserved hge] at hx
  | get11 idx => exact id

/-- Taking a fault does not look at OUT and keeps it (R135). -/
theorem PassesOut.of_raise {i : Instr} {s : State} (c : Cause) (info : BitVec 16)
    (h : ∀ v, exec i (s.withOut v) = raise c info i (s.withOut v)) : PassesOut i s :=
  ⟨s.latch c info (encode i), h⟩

theorem passesOut_wrb (idx : Idx) (val : Cell16) (s : State) : PassesOut (.wrb idx val) s := by
  by_cases h : s.bmax ≤ idx.toNat
  · exact .of_raise _ _ fun _ => if_pos h
  · exact ⟨s.writeByte idx.toNat (val.setWidth 8), fun _ => if_neg h⟩

theorem passesOut_wrs (idx : Idx) (val : Cell16) (s : State) : PassesOut (.wrs idx val) s := by
  by_cases h : s.smax ≤ idx.toNat
  · exact .of_raise _ _ fun _ => if_pos h
  · exact ⟨s.writeSym idx.toNat val, fun _ => if_neg h⟩

theorem passesOut_setr (reg : Idx) (val : Cell16) (s : State) : PassesOut (.setr reg val) s := by
  cases hx : operandReg? reg with
  | none => exact .of_raise .illegalCommand 0#16 fun _ => by simp only [exec, execSetr, hx]
  | some x =>
    cases hm : s.operandMax? x with
    | none =>
      exact .of_raise .illegalCommand 0#16 fun _ => by simp only [exec, execSetr, hx, hm, State.operandMax?_withOut]
    | some max =>
      by_cases h : max < val.toNat
      · exact .of_raise .operandRange 0#16 fun _ => by
          simp only [exec, execSetr, hx, hm, State.operandMax?_withOut, if_pos h]
      · exact ⟨s.writeOperand val x, fun _ => by
          simp only [exec, execSetr, hx, hm, State.operandMax?_withOut, if_neg h, State.writeOperand_withOut]⟩

theorem passesOut_put11 (idx : Idx) (val : Cell16) (s : State) : PassesOut (.put11 idx val) s := by
  by_cases h : isSymbol val = true
  · exact ⟨s.putSymbol idx.toNat (val.setWidth 11), fun _ => by
      simp only [exec, execPut11, if_pos h, State.putSymbol_withOut]⟩
  · exact .of_raise _ _ fun _ => if_neg h

theorem passesOut_join (s : State) : PassesOut .join s := by
  cases h : s.badSymbol with
  | some j =>
    exact .of_raise .invalidSymbol (BitVec.ofNat 16 j) fun _ => by
      simp only [exec, execJoin, State.badSymbol_withOut, h]
  | none =>
    exact ⟨s.zeroBuffer.putSymbols s.k.toNat, fun _ => by
      simp only [exec, execJoin, State.badSymbol_withOut, h, State.zeroBuffer_withOut, State.putSymbols_withOut,
        State.withOut_k]⟩

theorem passesOut_declen (s : State) : PassesOut .declen s := by
  by_cases hr : decide (s.m = 1#1) ∧ (s.r.toNat < 1 ∨ 10 < s.r.toNat)
  · exact .of_raise .malformedPadding (s.r.setWidth 16) fun _ => if_pos hr
  by_cases hk : decide (s.m = 1#1) ∧ s.k = 0#12
  · exact .of_raise .malformedPadding (s.r.setWidth 16) fun _ => (if_neg hr).trans (if_pos hk)
  by_cases hb : s.bmax < byteLen s.k.toNat (decide (s.m = 1#1)) s.r.toNat
  · exact .of_raise .operandRange 0#16 fun _ => (if_neg hr).trans ((if_neg hk).trans (if_pos hb))
  · have hclear (v : BitVec 16) := (apply_ite (State.withOut · v) (decide (s.m = 1#1) = true) s (s.withR 0#4)).symm
    exact ⟨(if decide (s.m = 1#1) then s else s.withR 0#4).withN
        (BitVec.ofNat 13 (byteLen s.k.toNat (decide (s.m = 1#1)) s.r.toNat)), fun v =>
      (if_neg hr).trans ((if_neg hk).trans ((if_neg hb).trans
        (congrArg (fun u : State => Host.Outcome.next (u.withN _)) (hclear v))))⟩

/-- Every command passes OUT on, or it delivers a value that it takes from elsewhere and changes nothing else (R20). -/
theorem exec_passes_or_delivers (i : Instr) (s : State) :
    PassesOut i s ∨ ∃ o, Delivers s i o ∧ ∀ v, exec i (s.withOut v) = .next (s.withOut o) := by
  cases i with
  | nop => exact .inl ⟨s, fun _ => rfl⟩
  | wrb idx val => exact .inl (passesOut_wrb idx val s)
  | rdb idx =>
    by_cases h : s.bmax ≤ idx.toNat
    · exact .inl (.of_raise _ _ fun _ => if_pos h)
    · exact .inr ⟨_, .rdb (Nat.not_le.1 h), fun _ => if_neg h⟩
  | wrs idx val => exact .inl (passesOut_wrs idx val s)
  | rds idx =>
    by_cases h : s.smax ≤ idx.toNat
    · exact .inl (.of_raise _ _ fun _ => if_pos h)
    · exact .inr ⟨_, .rds (Nat.not_le.1 h), fun _ => if_neg h⟩
  | setr reg val => exact .inl (passesOut_setr reg val s)
  | getr reg =>
    cases h : operandReg? reg with
    | none => exact .inl (.of_raise .illegalCommand 0#16 fun _ => by simp only [exec, execGetr, h])
    | some x =>
      exact .inr ⟨_, .getr h, fun _ => by
        simp only [exec, execGetr, h, State.operandValue_withOut, State.withOut_withOut]⟩
  | get11 idx => exact .inr ⟨_, .get11 idx, fun _ => rfl⟩
  | put11 idx val => exact .inl (passesOut_put11 idx val s)
  | split => exact .inl ⟨(s.withSym (s.sym.setPrefix (symbolCount s.n.toNat) fun j => (s.symbol j).setWidth 16)).withK
      (BitVec.ofNat 12 (symbolCount s.n.toNat)), fun _ => rfl⟩
  | join => exact .inl (passesOut_join s)
  | shl11 => exact .inl ⟨s.withBuf (s.buf.setPrefix s.n.toNat fun j => s.padded (j + 1) <<< 3 ||| s.padded (j + 2) >>> 5),
      fun _ => rfl⟩
  | enclen => exact .inl ⟨((s.withK (BitVec.ofNat 12 (symbolCount s.n.toNat))).withR
      (BitVec.ofNat 4 (descriptor s.n.toNat))).withM (marker s.n.toNat), fun _ => rfl⟩
  | declen => exact .inl (passesOut_declen s)

/-- Settles O19: `exec_passes_or_delivers` speaks of every value OUT may start with, and the `OUT` of `s` is one of
them. -/
theorem outIsWrittenOnlyByReadCommands : Obligations.OutIsWrittenOnlyByReadCommands := by
  intro i s t ht
  obtain ⟨u, hu⟩ | ⟨o, hdel, ho⟩ := exec_passes_or_delivers i s
  · obtain rfl : u.withOut s.out = t := Host.Outcome.next.inj ((hu s.out).symm.trans ht)
    exact ⟨.inl rfl, fun _ _ _ => rfl, fun v => ⟨v, hu v⟩⟩
  · obtain rfl : s.withOut o = t := Host.Outcome.next.inj ((ho s.out).symm.trans ht)
    refine ⟨.inr ?_, fun c info hf => absurd hf (hdel.not_commandFaults c info), fun v => ⟨o, ho v⟩⟩
    cases hdel with
    | rdb => exact .inl ⟨_, rfl, rfl⟩
    | rds => exact .inr (.inl ⟨_, rfl, rfl⟩)
    | getr hx => exact .inr (.inr (.inl ⟨_, _, rfl, hx, rfl⟩))
    | get11 => exact .inr (.inr (.inr ⟨_, rfl, rfl⟩))

end Sys2Proof.Machine
end

section
/-! The statements of 20_memory.md: the alignment of the symbols (R36) and the value of a symbol as a weighted sum of its
stream bits (R32). -/

namespace Sys2Proof.Machine

/-! ### Alignment -/

/-- Eight symbols take eleven whole cells, so `8k` symbols further on the bit_shift is the same (R36). -/
theorem bitShift_add_eight_mul (k r : Nat) : bitShift (8 * k + r) = bitShift r := by
  unfold bitShift
  rw [show 11 * (8 * k + r) = 11 * r + 8 * (11 * k) by ring, Nat.add_mul_mod_self_left]

/-- Eight symbols take eleven whole cells, so `8k` symbols further on the first cell is `11k` cells further on (R36). -/
theorem firstCell_add_eight_mul (k r : Nat) : firstCell (8 * k + r) = 11 * k + firstCell r := by
  unfold firstCell
  rw [show 11 * (8 * k + r) = 8 * (11 * k) + 11 * r by ring, Nat.mul_add_div (by decide)]

/-- The first period: the bit_shift and the first cell of each of the symbols 0 to 7 (R36). -/
theorem alignment_of_first_eight : ∀ r < 8,
    bitShift r = [0, 3, 6, 1, 4, 7, 2, 5].getD r 0 ∧ firstCell r = [0, 1, 2, 4, 5, 6, 8, 9].getD r 0 ∧
      (5 < bitShift r ↔ r = 2 ∨ r = 5) ∧ (bitShift r = 5 ↔ r = 7) := by
  decide

/-- Settles O44: the first eight symbols are computed, and every other symbol lies a whole number of periods after one of
them. -/
theorem alignmentRepeatsEveryEightSymbols : Obligations.AlignmentRepeatsEveryEightSymbols := by
  intro i
  obtain ⟨hshift, hcell, hthree, hexact⟩ := alignment_of_first_eight (i % 8) (Nat.mod_lt i (by decide))
  have shift_eq : bitShift i = bitShift (i % 8) := by
    rw [← bitShift_add_eight_mul (i / 8) (i % 8), Nat.div_add_mod]
  have cell_eq : firstCell i = 11 * (i / 8) + firstCell (i % 8) := by
    rw [← firstCell_add_eight_mul, Nat.div_add_mod]
  rw [shift_eq, cell_eq, hcell]
  exact ⟨hshift, rfl, hthree, hexact⟩

/-! ### The value of a symbol -/

/-- The low `n` bits of a number as a weighted sum, the most significant first. -/
theorem mod_two_pow_eq_sum_testBit (x n : Nat) :
    x % 2 ^ n = ((List.range n).map (fun t => if x.testBit (n - 1 - t) then 2 ^ (n - 1 - t) else 0)).sum := by
  induction n with
  | zero => simp [Nat.mod_one]
  | succ n ih =>
    have later : ∀ t, n + 1 - 1 - (t + 1) = n - 1 - t := by omega
    rw [List.range_succ_eq_map, List.map_cons, List.sum_cons, List.map_map, Nat.mod_pow_succ, ← Nat.toNat_testBit, ih,
      Nat.add_comm]
    congr 1
    · cases h : x.testBit n <;> simp [h]
    · simp only [Function.comp_def, Nat.succ_eq_add_one, later]

/-- Symbol `i` is the weighted sum of the stream bits `11i .. 11i+10`, the first with weight 1024 (R32). -/
theorem State.symbol_toNat_eq_sum (s : State) (i : Nat) :
    (s.symbol i).toNat =
      ((List.range 11).map (fun t => if s.streamBit (11 * i + t) then 2 ^ (10 - t) else 0)).sum := by
  rw [← Nat.mod_eq_of_lt (s.symbol i).isLt, mod_two_pow_eq_sum_testBit]
  refine congrArg List.sum (List.map_congr_left fun t ht => ?_)
  rw [BitVec.testBit_toNat, s.symbol_getLsbD i t (List.mem_range.1 ht)]

/-- Settles O32: GET11 writes the symbol to `OUT` zero-extended, which keeps its value. -/
theorem symbolIsElevenStreamBits : Obligations.SymbolIsElevenStreamBits := by
  intro s idx
  refine ⟨s.withOut ((s.symbol idx.toNat).setWidth 16), rfl, ?_⟩
  rw [State.withOut_out, BitVec.toNat_setWidth_of_le (by decide), s.symbol_toNat_eq_sum]

end Sys2Proof.Machine
end

section
/-! The statements of 30_encoding.md: which words are commands, by the format of their opcode (R53 to R57). -/

namespace Sys2Proof

/-! ### The format of an opcode and its must-be-zero fields -/

/-- The format of the row with this opcode, none where the opcode is reserved (R54, R56). -/
def formatOf? (op : BitVec 4) : Option Format :=
  (opcodeTable.find? (fun row => opField row.pattern == op)).map Row.format

theorem formatOf?_pattern : ∀ row ∈ opcodeTable, formatOf? (opField row.pattern) = some row.format := by decide

/-- An opcode with a format is the opcode of a row of that format. -/
theorem row_of_formatOf? {op : BitVec 4} {f : Format} (h : formatOf? op = some f) :
    ∃ row ∈ opcodeTable, opField row.pattern = op ∧ row.format = f := by
  obtain ⟨row, hrow, hformat⟩ := Option.map_eq_some_iff.1 h
  exact ⟨row, List.mem_of_find?_eq_some hrow,
    beq_iff_eq.1 (List.find?_some (p := fun row : Row => opField row.pattern == op) hrow), hformat⟩

theorem formatOf?_eq_none_iff : ∀ op, formatOf? op = none ↔ op.toNat = 14 ∨ op.toNat = 15 := by decide

theorem formatOf?_eq_z_iff : ∀ op, formatOf? op = some .z ↔
    op.toNat = 0 ∨ op.toNat = 9 ∨ op.toNat = 10 ∨ op.toNat = 11 ∨ op.toNat = 12 ∨ op.toNat = 13 := by decide

theorem formatOf?_eq_x_iff : ∀ op, formatOf? op = some .x ↔
    op.toNat = 2 ∨ op.toNat = 4 ∨ op.toNat = 6 ∨ op.toNat = 7 := by decide

theorem formatOf?_eq_xb_iff : ∀ op, formatOf? op = some .xb ↔ op.toNat = 1 := by decide

/-- The must-be-zero fields of the format are zero in the word (R53). -/
def Format.Accepts (f : Format) (cmd : Word) : Prop :=
  idxField cmd &&& f.idxMask = 0#12 ∧ valField cmd &&& f.valMask = 0#16

/-- The 28 bits below `op` are the fields `idx` and `val` (R51). -/
theorem idxField_append_valField (cmd : Word) : idxField cmd ++ valField cmd = cmd.extractLsb' 0 28 :=
  BitVec.extractLsb'_append_extractLsb'_eq_extractLsb' rfl

theorem Format.accepts_z_iff (cmd : Word) : Format.z.Accepts cmd ↔ cmd.extractLsb' 0 28 = 0#28 := by
  rw [← idxField_append_valField, Format.Accepts, Format.idxMask, Format.valMask,
    show (0xFFF#12) = BitVec.allOnes 12 by decide, show (0xFFFF#16) = BitVec.allOnes 16 by decide,
    BitVec.and_allOnes, BitVec.and_allOnes]
  constructor
  · rintro ⟨hidx, hval⟩
    rw [hidx, hval, BitVec.zero_append_zero]
  · intro h
    rw [idxField_append_valField] at h
    have hidx : (cmd.extractLsb' 0 28).extractLsb' 16 12 = idxField cmd :=
      BitVec.extractLsb'_extractLsb'_of_le (by decide)
    have hval : (cmd.extractLsb' 0 28).extractLsb' 0 16 = valField cmd :=
      BitVec.extractLsb'_extractLsb'_of_le (by decide)
    rw [← hidx, ← hval, h]
    exact ⟨BitVec.extractLsb'_zero, BitVec.extractLsb'_zero⟩

theorem Format.accepts_x_iff (cmd : Word) : Format.x.Accepts cmd ↔ cmd.extractLsb' 0 16 = 0#16 := by
  rw [Format.Accepts, Format.idxMask, Format.valMask, BitVec.and_zero,
    show (0xFFFF#16) = BitVec.allOnes 16 by decide, BitVec.and_allOnes, valField]
  exact and_iff_right rfl

theorem Format.accepts_xb_iff (cmd : Word) : Format.xb.Accepts cmd ↔ cmd.extractLsb' 8 8 = 0#8 := by
  have highByte : (valField cmd).extractLsb' 8 8 = cmd.extractLsb' 8 8 :=
    BitVec.extractLsb'_extractLsb'_of_le (by decide)
  rw [Format.Accepts, Format.idxMask, Format.valMask, BitVec.and_zero, ← Laws.highByte_zero, highByte]
  exact and_iff_right rfl

theorem Format.accepts_xv (cmd : Word) : Format.xv.Accepts cmd := ⟨BitVec.and_zero, BitVec.and_zero⟩

/-! ### What decodes -/

/-- A word is a command exactly when a row of the opcode map selects it (R55). -/
theorem decode_command_iff_selects (cmd : Word) :
    (∃ i, decode cmd = .command i) ↔ ∃ row ∈ opcodeTable, row.selects cmd = true := by
  rw [← List.find?_isSome (p := fun row : Row => row.selects cmd)]
  unfold decode
  cases opcodeTable.find? (fun row => row.selects cmd) with
  | none => simp
  | some row => simp

/-- A word is a command exactly when its opcode has a format and the word meets it (R55 to R57). -/
theorem decode_command_iff (cmd : Word) :
    (∃ i, decode cmd = .command i) ↔ ∃ f, formatOf? (opField cmd) = some f ∧ f.Accepts cmd := by
  rw [decode_command_iff_selects]
  constructor
  · rintro ⟨row, hmem, hselects⟩
    obtain ⟨hop, haccepts⟩ := (selects_iff row hmem cmd).1 hselects
    exact ⟨row.format, hop ▸ formatOf?_pattern row hmem, haccepts⟩
  · rintro ⟨f, hf, haccepts⟩
    obtain ⟨row, hmem, hop, rfl⟩ := row_of_formatOf? hf
    exact ⟨row, hmem, (selects_iff row hmem cmd).2 ⟨hop.symm, haccepts⟩⟩

/-- The words that are no command: no format, or a must-be-zero field of the format that is not zero (R56, R57). -/
theorem not_decode_command_iff (cmd : Word) :
    (¬ ∃ i, decode cmd = .command i) ↔
      formatOf? (opField cmd) = none ∨
      (formatOf? (opField cmd) = some .z ∧ cmd.extractLsb' 0 28 ≠ 0#28) ∨
      (formatOf? (opField cmd) = some .x ∧ cmd.extractLsb' 0 16 ≠ 0#16) ∨
      (formatOf? (opField cmd) = some .xb ∧ cmd.extractLsb' 8 8 ≠ 0#8) := by
  rw [decode_command_iff]
  cases formatOf? (opField cmd) with
  | none => simp
  | some f =>
    cases f with
    | z => simp [Format.accepts_z_iff]
    | x => simp [Format.accepts_x_iff]
    | xb => simp [Format.accepts_xb_iff]
    | xv => simp [Format.accepts_xv]

/-- The decoder refuses every word that is no command. -/
theorem decode_illegal_of_not_command {cmd : Word} (h : ¬ ∃ i, decode cmd = .command i) :
    ∃ why, decode cmd = .illegal why := by
  cases hd : decode cmd with
  | command i => exact absurd ⟨i, hd⟩ h
  | illegal why => exact ⟨why, rfl⟩

end Sys2Proof

namespace Sys2Proof.Machine

/-! ### What the port does with them -/

/-- A step with a word as the host's next move presents it at the port (R50). -/
theorem step_of_command {s : State} {cmd : Word} {rest : List HostEvent} (hhost : s.host = .command cmd :: rest) :
    step s = present cmd (s.withHost rest) := by
  simp only [step, takeNextEvent, hhost, takeEvent]

/-- A running block that is presented a word that is no command latches IllegalCommand (R56, R57, R135). -/
theorem present_of_illegal {s : State} {cmd : Word} {why : Illegal} (hrun : s.fault = 0#3)
    (hd : decode cmd = .illegal why) : present cmd s = .next (s.latch .illegalCommand 0#16 cmd) := by
  simp only [present, hrun, hd, ne_eq, not_true_eq_false, if_false]

/-- Settles O4: the opcode fixes the format, the format its must-be-zero fields, and a word is refused exactly when it has
no format or a non-zero bit in one of these fields. -/
theorem illegalWordsLatchIllegalCommand : Obligations.IllegalWordsLatchIllegalCommand := by
  refine ⟨by decide, fun cmd => ?_⟩
  intro op bad
  have bad_iff : bad ↔ ¬ ∃ i, decode cmd = .command i := by
    rw [not_decode_command_iff, formatOf?_eq_none_iff, formatOf?_eq_z_iff, formatOf?_eq_x_iff, formatOf?_eq_xb_iff]
    rfl
  refine ⟨fun hbad s rest hhost hrun => ?_, fun hgood => not_not.1 (mt bad_iff.2 hgood)⟩
  obtain ⟨why, hwhy⟩ := decode_illegal_of_not_command (bad_iff.1 hbad)
  rw [step_of_command hhost, present_of_illegal (by simpa using hrun) hwhy]
  rfl

end Sys2Proof.Machine
end

section
/-! The statements of 40_host_access.md: the words of NOP, WRB, RDB, WRS, SETR and GETR (R55, R60), and what these
commands do in range and out of it (R70 to R73, R75, R76). -/

namespace Sys2Proof

/-! ### The word of a command, by shifting its fields into place -/

/-- Appending is shifting the left part past the right one, whatever the width it is done at. -/
theorem setWidth_append_eq_or {v w : Nat} (k : Nat) (x : BitVec v) (y : BitVec w) :
    (x ++ y).setWidth k = x.setWidth k <<< w ||| y.setWidth k := by
  refine BitVec.eq_of_getLsbD_eq fun b hb => ?_
  rw [BitVec.getLsbD_or, BitVec.getLsbD_shiftLeft, BitVec.getLsbD_setWidth, BitVec.getLsbD_setWidth,
    BitVec.getLsbD_setWidth, BitVec.getLsbD_append]
  by_cases hlow : b < w
  · simp [hlow, hb]
  · simp [hlow, hb, show b - w < k by omega, BitVec.getLsbD_of_ge y b (Nat.not_lt.1 hlow)]

/-- `(op << 28) | (idx << 16) | val` (R60). -/
theorem assemble_eq_or (op : BitVec 4) (idx : Idx) (val : Cell16) :
    assemble op idx val = op.setWidth 32 <<< 12 <<< 16 ||| idx.setWidth 32 <<< 16 ||| val.setWidth 32 :=
  calc assemble op idx val
      = (op ++ idx ++ val).setWidth 32 := (BitVec.setWidth_eq _).symm
    _ = (op ++ idx).setWidth 32 <<< 16 ||| val.setWidth 32 := setWidth_append_eq_or 32 _ _
    _ = _ := by rw [setWidth_append_eq_or 32 op idx, BitVec.shiftLeft_or_distrib]

/-- A command without `val` has `(op << 28) | (idx << 16)` for its word (R60). -/
theorem assemble_zero_val_eq_or (op : BitVec 4) (idx : Idx) :
    assemble op idx 0#16 = op.setWidth 32 <<< 12 <<< 16 ||| idx.setWidth 32 <<< 16 := by
  rw [assemble_eq_or, BitVec.setWidth_zero, BitVec.or_zero]

/-- The word of a byte write (R71). -/
theorem encode_wrb_byte (idx : Idx) (b : Byte) :
    encode (.wrb idx (b.setWidth 16)) = 0x10000000#32 ||| (idx.setWidth 32 <<< 16) ||| b.setWidth 32 := by
  have byte_eq : (b.setWidth 16).setWidth 32 = b.setWidth 32 := BitVec.setWidth_setWidth (by decide)
  rw [← byte_eq]
  exact assemble_eq_or 1#4 idx (b.setWidth 16)

theorem encode_rdb (idx : Idx) : encode (.rdb idx) = 0x20000000#32 ||| (idx.setWidth 32 <<< 16) :=
  assemble_zero_val_eq_or 2#4 idx

theorem encode_wrs (idx : Idx) (val : Cell16) :
    encode (.wrs idx val) = 0x30000000#32 ||| (idx.setWidth 32 <<< 16) ||| val.setWidth 32 :=
  assemble_eq_or 3#4 idx val

theorem encode_setr (reg : Idx) (val : Cell16) :
    encode (.setr reg val) = 0x50000000#32 ||| (reg.setWidth 32 <<< 16) ||| val.setWidth 32 :=
  assemble_eq_or 5#4 reg val

theorem encode_getr (reg : Idx) : encode (.getr reg) = 0x60000000#32 ||| (reg.setWidth 32 <<< 16) :=
  assemble_zero_val_eq_or 6#4 reg

/-! ### Which words decode -/

/-- A row that selects a word decides what it decodes to: no two rows have one opcode (R54, R55). -/
theorem decode_of_selects {row : Row} {cmd : Word} (hmem : row ∈ opcodeTable) (hselects : row.selects cmd = true) :
    decode cmd = .command (row.make (idxField cmd) (valField cmd)) := by
  obtain ⟨found, hfound⟩ := Option.isSome_iff_exists.1
    ((List.find?_isSome (p := fun row : Row => row.selects cmd)).2 ⟨row, hmem, hselects⟩)
  have found_mem := List.mem_of_find?_eq_some hfound
  have found_selects := List.find?_some (p := fun row : Row => row.selects cmd) hfound
  have opcode_eq : opField found.pattern = opField row.pattern :=
    ((selects_iff found found_mem cmd).1 found_selects).1.symm.trans ((selects_iff row hmem cmd).1 hselects).1
  obtain rfl : found = row :=
    List.inj_on_of_nodup_map (List.pairwise_map.2 opcodes_distinct) found_mem hmem opcode_eq
  simp only [decode, hfound]

/-- A command whose word has a row of its own is decoded from that word. -/
theorem decode_encode_of_ownRow {i : Instr} (hown : Laws.OwnRow.Statement i) (hwf : i.WellFormed = true) :
    decode (encode i) = .command i := by
  obtain ⟨row, hmem, hselects, hmake⟩ := hown hwf
  rw [decode_of_selects hmem hselects, hmake]

/-- A word of format Z with a bit below its opcode is refused (R57). -/
theorem decode_illegal_of_z {cmd : Word} (hformat : formatOf? (opField cmd) = some .z)
    (hlow : cmd.extractLsb' 0 28 ≠ 0#28) : ∃ why, decode cmd = .illegal why :=
  decode_illegal_of_not_command ((not_decode_command_iff cmd).2 (.inr (.inl ⟨hformat, hlow⟩)))

/-- A word of format XB with a bit in the high byte of `val` is refused (R57). -/
theorem decode_illegal_of_xb {cmd : Word} (hformat : formatOf? (opField cmd) = some .xb)
    (hhigh : cmd.extractLsb' 8 8 ≠ 0#8) : ∃ why, decode cmd = .illegal why :=
  decode_illegal_of_not_command ((not_decode_command_iff cmd).2 (.inr (.inr (.inr ⟨hformat, hhigh⟩))))

/-- A byte zero-extended into `val` leaves the high byte zero, as format XB asks (R53). -/
theorem wellFormed_wrb_byte (idx : Idx) (b : Byte) : (Instr.wrb idx (b.setWidth 16)).WellFormed = true := by
  have high_zero : (b.setWidth 16).extractLsb' 8 8 = 0#8 := by
    refine BitVec.eq_of_getLsbD_eq fun j hj => ?_
    simp
  exact beq_iff_eq.2 high_zero

/-- A byte write with a non-zero byte above the byte written is refused (R57). -/
theorem decode_wrb_highByte (idx : Idx) (b high : Byte) (hne : high ≠ 0#8) :
    ∃ why, decode (encode (.wrb idx (b.setWidth 16)) ||| (high.setWidth 32 <<< 8)) = .illegal why := by
  have word_eq : encode (.wrb idx (b.setWidth 16)) ||| (high.setWidth 32 <<< 8) = assemble 1#4 idx (high ++ b) := by
    rw [encode_wrb_byte, assemble_eq_or, setWidth_append_eq_or, BitVec.or_assoc, BitVec.or_comm (b.setWidth 32)]
    rfl
  have highByte_eq : (assemble 1#4 idx (high ++ b)).extractLsb' 8 8 = high := by
    have field_eq : (valField (assemble 1#4 idx (high ++ b))).extractLsb' 8 8 = high := by
      rw [valField_assemble, BitVec.extractLsb'_append_eq_left]
    rwa [valField, BitVec.extractLsb'_extractLsb'_of_le (by decide)] at field_eq
  rw [word_eq]
  refine decode_illegal_of_xb ?_ (highByte_eq.trans_ne hne)
  rw [opField_assemble]
  decide

/-- Only the all-zero word has opcode 0 and no bit set below it (R51). -/
theorem eq_zero_of_opField_of_low {cmd : Word} (hop : opField cmd = 0#4) (hlow : cmd.extractLsb' 0 28 = 0#28) :
    cmd = 0#32 :=
  calc cmd = cmd.extractLsb' 0 32 := BitVec.extractLsb'_eq_self.symm
    _ = opField cmd ++ cmd.extractLsb' 0 28 :=
      (BitVec.extractLsb'_append_extractLsb'_eq_extractLsb' (len₂ := 4) (len₁ := 28) rfl).symm
    _ = 0#4 ++ 0#28 := by rw [hop, hlow]
    _ = 0#32 := BitVec.zero_append_zero

end Sys2Proof

namespace Sys2Proof.Machine

/-! ### The outcome of each command -/

/-- Taking a fault writes the three fault registers, the last with the command's word (R135). -/
theorem raise_eq_of_encode {i : Instr} {word : Word} (hword : encode i = word) (c : Cause) (info : BitVec 16)
    (s : State) : raise c info i s = .next { s with fault := c.code, finfo := info, fcmd := word } := by
  rw [raise_eq, hword]
  rfl

/-- The number by which SETR and GETR name a register (R17). -/
def OperandReg.number : OperandReg → Nat
  | .n => 0
  | .k => 1
  | .r => 2
  | .m => 3
  | .capb => 4
  | .caps => 5

/-- `operandReg?` finds the register that has the number. -/
theorem operandReg?_of_number {reg : Idx} {x : OperandReg} (h : reg.toNat = x.number) : operandReg? reg = some x := by
  cases x <;> simp [operandReg?, h, OperandReg.number]

theorem exec_getr {reg : Idx} {x : OperandReg} (s : State) (h : reg.toNat = x.number) :
    exec (.getr reg) s = .next (s.withOut (s.operandValue x)) := by
  simp only [exec, execGetr, operandReg?_of_number h]

theorem exec_getr_reserved {reg : Idx} (s : State) (h : 6 ≤ reg.toNat) :
    exec (.getr reg) s = raise .illegalCommand 0#16 (.getr reg) s := by
  simp only [exec, execGetr, operandReg?_of_reserved h]

/-- SETR of a register that takes values up to `max` (R75). -/
theorem exec_setr {reg : Idx} {val : Cell16} {s : State} {x : OperandReg} {max : Nat} (h : reg.toNat = x.number)
    (hmax : s.operandMax? x = some max) :
    exec (.setr reg val) s =
      if max < val.toNat then raise .operandRange 0#16 (.setr reg val) s else .next (s.writeOperand val x) := by
  simp only [exec, execSetr, operandReg?_of_number h, hmax]

/-- SETR of a constant (R75). -/
theorem exec_setr_constant {reg : Idx} {val : Cell16} {s : State} {x : OperandReg} (h : reg.toNat = x.number)
    (hmax : s.operandMax? x = none) :
    exec (.setr reg val) s = raise .illegalCommand 0#16 (.setr reg val) s := by
  simp only [exec, execSetr, operandReg?_of_number h, hmax]

/-- SETR of a number from 4 on: a constant, or no register at all (R58, R75). -/
theorem exec_setr_unwritable {reg : Idx} {val : Cell16} {s : State} (h : 4 ≤ reg.toNat) :
    exec (.setr reg val) s = raise .illegalCommand 0#16 (.setr reg val) s := by
  obtain hcapb | hcaps | hreserved : reg.toNat = 4 ∨ reg.toNat = 5 ∨ 6 ≤ reg.toNat := by omega
  · exact exec_setr_constant (x := .capb) hcapb rfl
  · exact exec_setr_constant (x := .caps) hcaps rfl
  · simp only [exec, execSetr, operandReg?_of_reserved hreserved]

/-- A value that fits a register keeps its number there. -/
theorem toNat_setWidth_of_lt {w : Nat} {val : Cell16} (h : val.toNat < 2 ^ w) : (val.setWidth w).toNat = val.toNat := by
  rw [BitVec.toNat_setWidth, Nat.mod_eq_of_lt h]

/-- The count of a legal capacity's symbols fits the 12 bits of `K` (00_scope.md section 4). -/
theorem State.smax_lt_of_legal {s : State} (h : s.cfg.Legal) : s.smax < 2 ^ 12 :=
  Nat.lt_of_le_of_lt (symbolCount_le h.2) (by decide)

/-! ### The statements -/

/-- Settles O22: a non-zero word of opcode 0 has a bit below the opcode, where format Z allows none. -/
theorem nopChangesNothing : Obligations.NopChangesNothing := by
  refine ⟨fun _ => rfl, by decide, fun cmd hop hne => ?_⟩
  have hformat : formatOf? (opField cmd) = some .z := by
    rw [show opField cmd = 0#4 from hop]
    decide
  exact decode_illegal_of_z hformat fun hlow => hne (eq_zero_of_opField_of_low hop hlow)

/-- Settles O23: the byte is `val[7:0]`, the field format XB leaves to the operand. -/
theorem wrbWritesOneByte : Obligations.WrbWritesOneByte := by
  intro s idx b
  have hword := encode_wrb_byte idx b
  have byte_eq : (b.setWidth 16).setWidth 8 = b := by
    rw [BitVec.setWidth_setWidth_of_le b (by decide), BitVec.setWidth_eq]
  refine ⟨hword ▸ decode_encode_of_ownRow (Laws.OwnRow.wrb idx _) (wellFormed_wrb_byte idx b),
    fun high hne => hword ▸ decode_wrb_highByte idx b high hne,
    fun hge => (if_pos hge).trans (raise_eq_of_encode hword _ _ s),
    fun hlt => ⟨_, if_neg (Nat.not_le.2 hlt), rfl, fun j => ?_⟩⟩
  rw [s.byteAt_writeByte, byte_eq]

/-- Settles O24: the capacity check is the whole case split. -/
theorem rdbReadsOneByte : Obligations.RdbReadsOneByte := by
  intro s idx
  have hword := encode_rdb idx
  exact ⟨hword ▸ decode_encode_of_ownRow (Laws.OwnRow.rdb idx) rfl,
    fun hge => (if_pos hge).trans (raise_eq_of_encode hword _ _ s),
    fun hlt => if_neg (Nat.not_le.2 hlt)⟩

/-- Settles O25: the value is stored as it stands, so no case of R12 enters. -/
theorem wrsWritesOneCell : Obligations.WrsWritesOneCell := by
  intro s idx val
  have hword := encode_wrs idx val
  exact ⟨hword ▸ decode_encode_of_ownRow (Laws.OwnRow.wrs idx val) rfl,
    fun hge => (if_pos hge).trans (raise_eq_of_encode hword _ _ s),
    fun hlt => ⟨_, if_neg (Nat.not_le.2 hlt), rfl, fun j => s.symAt_writeSym idx.toNat j val⟩⟩

/-- Settles O27: each register's bound is below the register's width, so the number written is the value's. -/
theorem setrWritesTheNamedRegister : Obligations.SetrWritesTheNamedRegister := by
  intro s reg val hlegal
  have hword := encode_setr reg val
  have writes {x : OperandReg} {max : Nat} (hreg : reg.toNat = x.number) (hmax : s.operandMax? x = some max)
      (hle : val.toNat ≤ max) : exec (.setr reg val) s = .next (s.writeOperand val x) :=
    (exec_setr hreg hmax).trans (if_neg (Nat.not_lt.2 hle))
  have refuses {x : OperandReg} {max : Nat} (hreg : reg.toNat = x.number) (hmax : s.operandMax? x = some max)
      (hlt : max < val.toNat) : exec (.setr reg val) s = raise .operandRange 0#16 (.setr reg val) s :=
    (exec_setr hreg hmax).trans (if_pos hlt)
  have bmax_lt : s.bmax < 2 ^ 13 := Nat.lt_of_le_of_lt hlegal.2 (by decide)
  refine ⟨hword ▸ decode_encode_of_ownRow (Laws.OwnRow.setr reg val) rfl,
    fun hreg hle => ⟨_, writes (x := .n) hreg rfl hle, rfl, toNat_setWidth_of_lt (hle.trans_lt bmax_lt)⟩,
    fun hreg hle => ⟨_, writes (x := .k) hreg rfl hle, rfl,
      toNat_setWidth_of_lt (hle.trans_lt (State.smax_lt_of_legal hlegal))⟩,
    fun hreg hle => ⟨_, writes (x := .r) hreg rfl hle, rfl, toNat_setWidth_of_lt (Nat.lt_succ_of_le hle)⟩,
    fun hreg hle => ⟨_, writes (x := .m) hreg rfl hle, rfl, toNat_setWidth_of_lt (Nat.lt_succ_of_le hle)⟩,
    fun hbeyond => ?_,
    fun hge => (exec_setr_unwritable hge).trans (raise_eq_of_encode hword _ _ s)⟩
  refine Eq.trans ?_ (raise_eq_of_encode hword .operandRange 0#16 s)
  obtain ⟨hreg, hlt⟩ | ⟨hreg, hlt⟩ | ⟨hreg, hlt⟩ | ⟨hreg, hlt⟩ := hbeyond
  · exact refuses (x := .n) hreg rfl hlt
  · exact refuses (x := .k) hreg rfl hlt
  · exact refuses (x := .r) hreg rfl hlt
  · exact refuses (x := .m) hreg rfl hlt

/-- Settles O28: the six numbers name the six registers, and every later one is reserved. -/
theorem getrReadsTheNamedRegister : Obligations.GetrReadsTheNamedRegister := by
  intro s reg
  have hword := encode_getr reg
  exact ⟨hword ▸ decode_encode_of_ownRow (Laws.OwnRow.getr reg) rfl,
    exec_getr (x := .n) s, exec_getr (x := .k) s, exec_getr (x := .r) s, exec_getr (x := .m) s,
    exec_getr (x := .capb) s, exec_getr (x := .caps) s,
    fun hge => (exec_getr_reserved s hge).trans (raise_eq_of_encode hword _ _ s)⟩

end Sys2Proof.Machine
end

section
/-! The statements of 41_bitgrouper.md: what the regrouping commands read and write, by the natural-number arithmetic of
the rules (R80 to R84) and on the bit stream (R84 to R88). -/

namespace Sys2Proof

/-! ### The words of GET11 and PUT11 -/

theorem encode_get11 (idx : Idx) : encode (.get11 idx) = 0x70000000#32 ||| (idx.setWidth 32 <<< 16) :=
  assemble_zero_val_eq_or 7#4 idx

theorem encode_put11 (idx : Idx) (val : Cell16) :
    encode (.put11 idx val) = 0x80000000#32 ||| (idx.setWidth 32 <<< 16) ||| val.setWidth 32 :=
  assemble_eq_or 8#4 idx val

end Sys2Proof

namespace Sys2Proof.Machine

/-! ### The stream behind the cells and the symbols -/

theorem State.streamBit_of_le {s : State} {p : Nat} (h : 8 * s.n.toNat ≤ p) : s.streamBit p = false :=
  if_neg (Nat.not_lt.2 h)

/-- A stream bit below `8N`, in the cell that holds it (R30). -/
theorem State.streamBit_of_lt {s : State} {p : Nat} (h : p < 8 * s.n.toNat) :
    s.streamBit p = (s.byteAt (p / 8)).getLsbD (7 - p % 8) :=
  if_pos h

/-- A Symbol whose bits, most significant first, are the stream bits from `11i` on is symbol `i`. -/
theorem State.eq_symbol_of_getLsbD {s : State} {i : Nat} {v : Symbol}
    (h : ∀ t < 11, v.getLsbD (10 - t) = s.streamBit (11 * i + t)) : v = s.symbol i := by
  refine BitVec.eq_of_getLsbD_eq fun b hb => ?_
  have hbit := (h (10 - b) (by omega)).trans (s.symbol_getLsbD i (10 - b) (by omega)).symm
  rwa [show 10 - (10 - b) = b by omega] at hbit

/-- From the count on there is no symbol: `get11` reads zeros (R80 (a)). -/
theorem State.symbol_of_symbolCount_le {s : State} {i : Nat} (h : symbolCount s.n.toNat ≤ i) : s.symbol i = 0#11 := by
  refine (State.eq_symbol_of_getLsbD fun t _ => ?_).symm
  unfold symbolCount at h
  rw [State.streamBit_of_le (by omega), BitVec.getLsbD_zero]

/-! ### `get11` on natural numbers (R80) -/

theorem State.padded_toNat (s : State) (j : Nat) : (s.padded j).toNat = s.paddedNat j := by
  unfold State.padded State.paddedNat
  split <;> rfl

theorem State.window_toNat (s : State) (i : Nat) :
    (s.window i).toNat =
      s.paddedNat (firstCell i) <<< 16 ||| s.paddedNat (firstCell i + 1) <<< 8 ||| s.paddedNat (firstCell i + 2) := by
  unfold State.window
  rw [BitVec.toNat_append, BitVec.toNat_append, Nat.shiftLeft_or_distrib, ← Nat.shiftLeft_add, s.padded_toNat,
    s.padded_toNat, s.padded_toNat]

theorem State.symbol_toNat (s : State) (i : Nat) : (s.symbol i).toNat = s.get11Value i := by
  rw [State.symbol, BitVec.toNat_setWidth, BitVec.toNat_ushiftRight, s.window_toNat, ← Nat.and_two_pow_sub_one_eq_mod]
  rfl

/-- The 16-bit zero extension that GET11 and SPLIT deliver. -/
theorem State.symbol_setWidth_eq_ofNat (s : State) (i : Nat) :
    (s.symbol i).setWidth 16 = BitVec.ofNat 16 (s.get11Value i) := by
  rw [← s.symbol_toNat, BitVec.ofNat_toNat]

theorem State.get11Value_le (s : State) (i : Nat) : s.get11Value i ≤ 2047 :=
  Nat.le_of_lt_succ (s.symbol_toNat i ▸ (s.symbol i).isLt)

/-- Settles O30: the value delivered is that of `State.symbol`, whose window is the rule's `w`. -/
theorem get11ExtractsTheWindowField : Obligations.Get11ExtractsTheWindowField := by
  intro s idx
  refine ⟨encode_get11 idx ▸ decode_encode_of_ownRow (Laws.OwnRow.get11 idx) rfl, ?_, s.get11Value_le _,
    fun hend => ?_⟩
  · exact congrArg (fun v => Host.Outcome.next (s.withOut v)) (s.symbol_setWidth_eq_ofNat idx.toNat)
  · rw [← s.symbol_toNat, State.symbol_of_symbolCount_le hend]
    rfl

/-! ### The three-case form (R81) -/

/-- A cell on 16 bits, as R81 uses it. -/
theorem State.padded_setWidth_getLsbD (s : State) (j k : Nat) :
    ((s.padded j).setWidth 16).getLsbD k = (decide (k < 8) && s.streamBit (8 * j + (7 - k))) := by
  by_cases hk : k < 8
  · rw [BitVec.getLsbD_setWidth, s.padded_getLsbD j k hk, decide_eq_true (show k < 16 by omega), decide_eq_true hk]
  · simp [hk, BitVec.getLsbD_of_ge _ k (Nat.not_lt.1 hk)]

/-- Two neighbouring cells side by side are 16 bits of the stream. -/
theorem State.twoCells_getLsbD (s : State) (q k : Nat) (hk : k < 16) :
    ((s.padded q).setWidth 16 <<< 8 ||| (s.padded (q + 1)).setWidth 16).getLsbD k = s.streamBit (8 * q + (15 - k)) := by
  rw [BitVec.getLsbD_or, BitVec.getLsbD_shiftLeft, s.padded_setWidth_getLsbD, s.padded_setWidth_getLsbD]
  by_cases hlow : k < 8
  · simp [hlow, show 8 * (q + 1) + (7 - k) = 8 * q + (15 - k) by omega]
  · simp [hlow, hk, show k - 8 < 8 by omega, show 7 - (k - 8) = 15 - k by omega]

/-- A mask of the low `m` bits. -/
theorem lowMask_getLsbD (m k : Nat) (hk : k < 16) :
    (BitVec.setWidth 16 (BitVec.allOnes m)).getLsbD k = decide (k < m) := by
  simp [BitVec.getLsbD_allOnes, hk]

/-- The case `s < 5` of R81: the field lies in two cells, with bits after it. -/
theorem State.twoCellCase_getLsbD (s : State) {q sh k : Nat} (hsh : sh < 5) (hk : k < 11) :
    ((((s.padded q).setWidth 16 <<< 8 ||| (s.padded (q + 1)).setWidth 16) >>> (5 - sh)) &&& 0x7FF#16).getLsbD k =
      s.streamBit (8 * q + sh + (10 - k)) := by
  rw [BitVec.getLsbD_and, BitVec.getLsbD_ushiftRight, s.twoCells_getLsbD _ _ (by omega),
    show (0x7FF#16) = BitVec.setWidth 16 (BitVec.allOnes 11) by decide, lowMask_getLsbD _ _ (by omega),
    decide_eq_true hk, Bool.and_true]
  congr 1; omega

/-- The case `s = 5` of R81: the field ends with its second cell. -/
theorem State.exactCase_getLsbD (s : State) {q k : Nat} (hk : k < 11) :
    (((s.padded q).setWidth 16 &&& 0x07#16) <<< 8 ||| (s.padded (q + 1)).setWidth 16).getLsbD k =
      s.streamBit (8 * q + 5 + (10 - k)) := by
  rw [BitVec.getLsbD_or, BitVec.getLsbD_shiftLeft, BitVec.getLsbD_and, s.padded_setWidth_getLsbD,
    s.padded_setWidth_getLsbD, show (0x07#16) = BitVec.setWidth 16 (BitVec.allOnes 3) by decide,
    lowMask_getLsbD _ _ (by omega)]
  by_cases hsecond : k < 8
  · simp [hsecond, show 8 * (q + 1) + (7 - k) = 8 * q + 5 + (10 - k) by omega]
  · simp [hsecond, show k < 16 by omega, show k - 8 < 3 by omega, show k - 8 < 8 by omega,
      show 8 * q + (7 - (k - 8)) = 8 * q + 5 + (10 - k) by omega]

/-- The case `s > 5` of R81: the field lies in three cells. -/
theorem State.threeCellCase_getLsbD (s : State) {q sh k : Nat} (hlo : 5 < sh) (hhi : sh < 8) (hk : k < 11) :
    (((s.padded q).setWidth 16 &&& (0xFF#16 >>> sh)) <<< (3 + sh) ||| (s.padded (q + 1)).setWidth 16 <<< (sh - 5) |||
      (s.padded (q + 2)).setWidth 16 >>> (13 - sh)).getLsbD k = s.streamBit (8 * q + sh + (10 - k)) := by
  rw [BitVec.getLsbD_or, BitVec.getLsbD_or, BitVec.getLsbD_shiftLeft, BitVec.getLsbD_and,
    BitVec.getLsbD_ushiftRight, BitVec.getLsbD_shiftLeft, BitVec.getLsbD_ushiftRight, s.padded_setWidth_getLsbD,
    s.padded_setWidth_getLsbD, s.padded_setWidth_getLsbD,
    show (0xFF#16) = BitVec.setWidth 16 (BitVec.allOnes 8) by decide, lowMask_getLsbD _ _ (by omega)]
  by_cases hthird : k < sh - 5
  · simp [hthird, show k < 3 + sh by omega, show 13 - sh + k < 8 by omega,
      show 8 * (q + 2) + (7 - (13 - sh + k)) = 8 * q + sh + (10 - k) by omega]
  by_cases hsecond : k < 3 + sh
  · simp [hthird, hsecond, show ¬ 13 - sh + k < 8 by omega, show k < 16 by omega, show k - (sh - 5) < 8 by omega,
      show 8 * (q + 1) + (7 - (k - (sh - 5))) = 8 * q + sh + (10 - k) by omega]
  · simp [hthird, hsecond, show ¬ 13 - sh + k < 8 by omega, show k < 16 by omega, show ¬ k - (sh - 5) < 8 by omega,
      show k - (3 + sh) < 8 by omega, show sh + (k - (3 + sh)) < 8 by omega,
      show 8 * q + (7 - (k - (3 + sh))) = 8 * q + sh + (10 - k) by omega]

/-- In each of the three cases of R81 the bits are the stream bits of the symbol. -/
theorem State.symbolByCase_getLsbD (s : State) (i t : Nat) (ht : t < 11) :
    (s.symbolByCase i).getLsbD (10 - t) = s.streamBit (11 * i + t) := by
  have hk : 10 - t < 11 := by omega
  have position_eq : 8 * firstCell i + bitShift i + (10 - (10 - t)) = 11 * i + t := by
    rw [← symbol_position]; omega
  rw [← position_eq]
  unfold State.symbolByCase
  dsimp only
  split
  case isTrue hlt => rw [BitVec.getLsbD_setWidth, s.twoCellCase_getLsbD hlt hk, decide_eq_true hk, Bool.true_and]
  case isFalse hge =>
    split
    case isTrue heq => rw [BitVec.getLsbD_setWidth, s.exactCase_getLsbD hk, decide_eq_true hk, Bool.true_and, heq]
    case isFalse hne =>
      rw [BitVec.getLsbD_setWidth, s.threeCellCase_getLsbD (by omega) (bitShift_lt i) hk, decide_eq_true hk,
        Bool.true_and]

/-- Settles O31: both forms have the stream bits from `11i` on. -/
theorem threeCaseFormEqualsClosedForm : Obligations.ThreeCaseFormEqualsClosedForm := by
  intro s i
  have heq : s.symbolByCase i = s.symbol i := State.eq_symbol_of_getLsbD (s.symbolByCase_getLsbD i)
  exact ⟨heq ▸ s.symbol_toNat i, heq⟩

/-! ### `put11` on natural numbers (R82) -/

/-- A value shifted into its field stays inside the window, as a field has 11 bits. -/
theorem shiftLeft_field_lt {v : Nat} (hv : v < 2 ^ 11) (i : Nat) : v <<< (13 - bitShift i) < 2 ^ 24 := by
  rw [Nat.shiftLeft_eq]
  calc v * 2 ^ (13 - bitShift i) < 2 ^ 11 * 2 ^ (13 - bitShift i) := Nat.mul_lt_mul_of_pos_right hv (Nat.two_pow_pos _)
    _ ≤ 2 ^ 11 * 2 ^ 13 := Nat.mul_le_mul_left _ (Nat.pow_le_pow_right (by decide) (Nat.sub_le _ _))

theorem fieldMask_toNat (i : Nat) : (fieldMask i).toNat = 0x7FF <<< (13 - bitShift i) := by
  rw [fieldMask, BitVec.toNat_shiftLeft]
  exact Nat.mod_eq_of_lt (shiftLeft_field_lt (by decide) i)

theorem fieldData_toNat (i : Nat) (v : Symbol) : (fieldData i v).toNat = v.toNat <<< (13 - bitShift i) := by
  rw [fieldData, BitVec.toNat_shiftLeft, BitVec.toNat_setWidth_of_le (by decide),
    Nat.mod_eq_of_lt (shiftLeft_field_lt v.isLt i)]

theorem windowCell_toNat (w : Window) (t : Nat) : (windowCell w t).toNat = (w.toNat >>> (16 - 8 * t)) &&& 0xFF := by
  rw [windowCell, BitVec.extractLsb'_toNat, ← Nat.and_two_pow_sub_one_eq_mod]

/-- The masked update of one cell, as the rule writes it (R82). -/
theorem maskedByte_toNat (old : Byte) (i : Nat) (v : Symbol) (t : Nat) :
    (maskedByte old i v t).toNat =
      (old.toNat &&& (0xFF - ((0x7FF <<< (13 - bitShift i)) >>> (16 - 8 * t) &&& 0xFF))) |||
        ((v.toNat <<< (13 - bitShift i)) >>> (16 - 8 * t) &&& 0xFF) := by
  rw [maskedByte, BitVec.toNat_or, BitVec.toNat_and, BitVec.toNat_not, windowCell_toNat, windowCell_toNat,
    fieldMask_toNat, fieldData_toNat]

theorem State.byteAt_putSymbol_toNat (s : State) (i : Nat) (v : Symbol) (j : Nat) :
    ((s.putSymbol i v).byteAt j).toNat = s.put11Value i v.toNat j := by
  rw [State.byteAt_putSymbol, apply_ite BitVec.toNat, maskedByte_toNat]
  unfold State.put11Value
  exact if_congr (by unfold firstCell; omega) rfl rfl

/-- Settles O33: each cell of the window takes the rule's masked value, and a value of 2048 or more is refused first. -/
theorem put11ReplacesTheField : Obligations.Put11ReplacesTheField := by
  intro s idx val
  have hword := encode_put11 idx val
  refine ⟨hword ▸ decode_encode_of_ownRow (Laws.OwnRow.put11 idx val) rfl, fun hgt => ?_, fun hle => ?_⟩
  · exact (if_neg (by simpa [isSymbol] using hgt)).trans (raise_eq_of_encode hword _ _ s)
  · have value_eq : (val.setWidth 11).toNat = val.toNat := toNat_setWidth_of_lt (Nat.lt_succ_of_le hle)
    obtain ⟨b, hb⟩ := s.putSymbol_frame idx.toNat (val.setWidth 11)
    refine ⟨s.putSymbol idx.toNat (val.setWidth 11), if_pos (by simpa [isSymbol] using hle), by rw [hb]; rfl,
      fun j => ?_⟩
    rw [s.byteAt_putSymbol_toNat, value_eq]

/-! ### SHL11 (R84, R85) -/

/-- The state that SHL11 leaves: cell `j` below `N` is the old stream's byte from bit `8j + 11` on. -/
def State.shifted (s : State) : State :=
  s.withBuf (s.buf.setPrefix s.n.toNat (fun j => s.padded (j + 1) <<< 3 ||| s.padded (j + 2) >>> 5))

theorem exec_shl11 (s : State) : exec .shl11 s = .next s.shifted := rfl

theorem State.byteAt_shifted (s : State) (j : Nat) :
    s.shifted.byteAt j =
      if j < s.n.toNat then s.padded (j + 1) <<< 3 ||| s.padded (j + 2) >>> 5 else s.byteAt j :=
  s.byteAt_setPrefix s.n.toNat j _

/-- A shifted cell on natural numbers, as the rule writes it (R84). -/
theorem State.shiftedCell_toNat (s : State) (j : Nat) :
    (s.padded (j + 1) <<< 3 ||| s.padded (j + 2) >>> 5).toNat =
      (s.paddedNat (j + 1) <<< 3 ||| s.paddedNat (j + 2) >>> 5) &&& 0xFF := by
  have low_lt : s.paddedNat (j + 2) >>> 5 < 2 ^ 8 :=
    Nat.lt_of_le_of_lt (Nat.shiftRight_le _ _) (s.padded_toNat (j + 2) ▸ (s.padded (j + 2)).isLt)
  rw [BitVec.toNat_or, BitVec.toNat_shiftLeft, BitVec.toNat_ushiftRight, s.padded_toNat, s.padded_toNat,
    show (0xFF : Nat) = 2 ^ 8 - 1 from rfl, Nat.and_two_pow_sub_one_eq_mod, Nat.or_mod_two_pow,
    Nat.mod_eq_of_lt low_lt]

/-- A bit of a shifted cell is the stream bit 11 positions on from its own. -/
theorem State.shiftedCell_getLsbD (s : State) (j b : Nat) (hb : b < 8) :
    (s.padded (j + 1) <<< 3 ||| s.padded (j + 2) >>> 5).getLsbD b = s.streamBit (8 * j + (7 - b) + 11) := by
  rw [BitVec.getLsbD_or, BitVec.getLsbD_shiftLeft, BitVec.getLsbD_ushiftRight]
  by_cases hlow : b < 3
  · rw [s.padded_getLsbD _ _ (show 5 + b < 8 by omega)]
    simp [hlow, show 8 * (j + 2) + (7 - (5 + b)) = 8 * j + (7 - b) + 11 by omega]
  · rw [s.padded_getLsbD _ _ (show b - 3 < 8 by omega), BitVec.getLsbD_of_ge _ _ (show 8 ≤ 5 + b by omega)]
    simp [hlow, hb, show 8 * (j + 1) + (7 - (b - 3)) = 8 * j + (7 - b) + 11 by omega]

/-- SHL11 moves the stream left by 11 bits; from `8N` on both sides are 0 (R84). -/
theorem State.streamBit_shifted (s : State) (p : Nat) : s.shifted.streamBit p = s.streamBit (p + 11) := by
  by_cases hp : p < 8 * s.n.toNat
  · rw [State.streamBit_of_lt (s := s.shifted) hp, s.byteAt_shifted, if_pos (by omega),
      s.shiftedCell_getLsbD _ _ (by omega)]
    congr 1; omega
  · rw [State.streamBit_of_le (s := s.shifted) (Nat.not_lt.1 hp), State.streamBit_of_le (by omega)]

/-- Settles O36: one new cell is the rule's expression as a number, and eleven stream positions on as bits. -/
theorem shl11ShiftsTheBuffer : Obligations.Shl11ShiftsTheBuffer := by
  refine ⟨by decide, fun s => ⟨s.shifted, exec_shl11 s, rfl, fun j hj => ?_, fun j hj => ?_,
    fun p _ => s.streamBit_shifted p⟩⟩
  · rw [s.byteAt_shifted, if_pos hj, s.shiftedCell_toNat]
  · rw [s.byteAt_shifted, if_neg (Nat.not_lt.2 hj)]

/-- Presenting a command word to a running block whose command completes, whatever the host does next: the rest of the
words are presented to the state it leaves (R50, R155). -/
theorem presentAll_cons {s t : State} {cmd : Word} {i : Instr} (cmds : List Word) (hrun : Running s)
    (hdecode : decode cmd = .command i) (hexec : exec i (s.given cmds) = .next (t.given cmds)) :
    presentAll s (cmd :: cmds) = presentAll t cmds := by
  have hstep : step (s.given (cmd :: cmds)) = .next (t.given cmds) := by
    have hrest : (s.given (cmd :: cmds)).withHost (cmds.map HostEvent.command) = s.given cmds := rfl
    have hrun' : (s.given cmds).fault = 0#3 := hrun
    rw [step_of_command rfl, hrest, present]
    simp only [hrun', ne_eq, not_true_eq_false, if_false, hdecode, hexec]
  rw [presentAll, List.length_cons, steps, hstep]
  rfl

/-- `i` SHL11 commands bring stream position `p + 11i` to position `p`. -/
theorem presentAll_replicate_shl11 (i : Nat) {s : State} (hrun : Running s) :
    ∃ t, presentAll s (List.replicate i 0xB0000000#32) = .next t ∧ ∀ p, t.streamBit p = s.streamBit (p + 11 * i) := by
  induction i generalizing s with
  | zero => exact ⟨s.given [], rfl, fun _ => rfl⟩
  | succ i ih =>
    obtain ⟨t, ht, hbits⟩ := ih (s := s.shifted) hrun
    refine ⟨t, (presentAll_cons _ hrun (by decide) (exec_shl11 _)).trans ht, fun p => ?_⟩
    rw [hbits, s.streamBit_shifted, Nat.add_assoc, ← Nat.mul_succ]

/-- Settles O37: the 11 bits of symbol 0 at the end are those from `11i` on at the start. -/
theorem shiftingBringsEachSymbolToTheFront : Obligations.ShiftingBringsEachSymbolToTheFront := by
  intro s i hrun
  obtain ⟨t, ht, hbits⟩ := presentAll_replicate_shl11 i hrun
  refine ⟨t, ht, ?_⟩
  have symbol_eq : t.symbol 0 = s.symbol i := State.eq_symbol_of_getLsbD fun b hb => by
    rw [t.symbol_getLsbD 0 b hb, hbits]
    congr 1; omega
  rw [← t.symbol_toNat, symbol_eq, s.symbol_toNat]

/-! ### SPLIT (R86, R87) -/

/-- What SPLIT leaves in a state that meets the invariant: the count fits `K`, as `N` is within the capacity (R86). -/
theorem exec_split {s : State} (hinv : StateInv s) :
    ∃ t, exec .split s = .next t ∧ { t with sym := s.sym, k := s.k } = s ∧ t.k.toNat = symbolCount s.n.toNat ∧
      ∀ i, t.symAt i = if i < symbolCount s.n.toNat then (s.symbol i).setWidth 16 else s.symAt i := by
  obtain ⟨hlegal, hn, -⟩ := hinv
  have count_lt : symbolCount s.n.toNat < 2 ^ 12 :=
    Nat.lt_of_le_of_lt (symbolCount_le (hn.trans hlegal.2)) (by decide)
  exact ⟨_, rfl, rfl, Nat.mod_eq_of_lt count_lt, fun i => s.symAt_setPrefix _ i _⟩

/-- Settles O38: the count stays within `SMAX` because `N` stays within `BMAX`. -/
theorem splitWritesTheSymbols : Obligations.SplitWritesTheSymbols := by
  refine ⟨by decide, fun s hinv => ?_⟩
  obtain ⟨t, ht, hframe, hk, hsym⟩ := exec_split hinv
  obtain ⟨-, hn, -⟩ := hinv
  refine ⟨t, ht, hframe, hk, hk ▸ symbolCount_mono hn, fun i hi => ?_, fun i hi => ?_⟩
  · rw [hsym, ← s.symbol_setWidth_eq_ofNat]
    exact if_pos hi
  · rw [hsym]
    exact if_neg (Nat.not_lt.2 hi)

/-- Settles O39: below `K` every cell is a zero-extended symbol, and the laws are laws of symbols and of the count. -/
theorem splitLaws : Obligations.SplitLaws := by
  intro s hinv
  obtain ⟨t, ht, -, hk, hsym⟩ := exec_split hinv
  have cell_eq {i : Nat} (hi : i < t.k.toNat) : t.symAt i = (s.symbol i).setWidth 16 := by
    rw [hsym, if_pos (hk ▸ hi)]
  have count_of_length {n : BitVec 13} {k : BitVec 12} (hnk : symbolCount n.toNat = k.toNat) (hn : s.n = n) :
      t.k = k :=
    BitVec.eq_of_toNat_eq (by rw [hk, hn, hnk])
  refine ⟨t, ht, hk, fun i hi => ?_, count_of_length (by decide), fun p hp => ?_,
    fun h => h.elim (count_of_length (by decide)) (count_of_length (by decide)),
    fun h => h.elim (count_of_length (by decide)) (count_of_length (by decide)),
    fun h => h.elim (count_of_length (by decide)) (count_of_length (by decide))⟩
  · rw [cell_eq hi, BitVec.toNat_setWidth_of_le (by decide), s.symbol_toNat]
    exact s.get11Value_le i
  · rw [cell_eq (by omega), BitVec.getLsbD_setWidth, s.symbol_getLsbD _ _ (by omega), Nat.div_add_mod]
    simp [show 10 - p % 11 < 16 by omega]

/-! ### JOIN (R88) -/

/-- Zeroing the ByteBuffer clears the whole stream. -/
theorem State.streamBit_zeroBuffer (s : State) (p : Nat) : s.zeroBuffer.streamBit p = false := by
  by_cases hp : p < 8 * s.n.toNat
  · rw [State.streamBit_of_lt (s := s.zeroBuffer) hp, s.byteAt_zeroBuffer, if_pos (by omega), BitVec.getLsbD_zero]
  · exact State.streamBit_of_le (Nat.not_lt.1 hp)

theorem State.putSymbols_n (s : State) (count : Nat) : (s.putSymbols count).n = s.n := by
  obtain ⟨b, hb⟩ := s.putSymbols_frame count
  rw [hb, State.withBuf_n]

/-- The writes of JOIN on the bit stream: a position below `8N` takes its bit from the symbol that covers it, if that
symbol is among the first `count` (R88). -/
theorem State.streamBit_putSymbols (s : State) (count p : Nat) :
    (s.putSymbols count).streamBit p =
      if p / 11 < count ∧ p < 8 * s.n.toNat then (s.symAt (p / 11)).getLsbD (10 - p % 11) else s.streamBit p := by
  induction count with
  | zero => simp [State.putSymbols]
  | succ count ih =>
    rw [State.putSymbols, State.streamBit_putSymbol, s.putSymbols_n, ih]
    by_cases hcover : p / 11 = count ∧ p < 8 * s.n.toNat
    · obtain ⟨rfl, hp⟩ := hcover
      rw [if_pos ⟨by omega, by omega, hp⟩, if_pos ⟨by omega, hp⟩, BitVec.getLsbD_setWidth,
        show p - 11 * (p / 11) = p % 11 by omega, decide_eq_true (show 10 - p % 11 < 11 by omega), Bool.true_and]
    · rw [if_neg (by omega)]
      exact if_congr (by omega) rfl rfl

/-- The writes of JOIN keep the cells from `N` on (R88). -/
theorem State.byteAt_putSymbols_of_le (s : State) (count : Nat) {j : Nat} (h : s.n.toNat ≤ j) :
    (s.putSymbols count).byteAt j = s.byteAt j := by
  induction count with
  | zero => rfl
  | succ count ih =>
    rw [State.putSymbols, State.byteAt_putSymbol, s.putSymbols_n, if_neg (by omega), ih]

/-- Settles O40: JOIN zeroes the stream and then covers it symbol by symbol. -/
theorem joinWritesTheBytes : Obligations.JoinWritesTheBytes := by
  refine ⟨by decide, fun s => ⟨fun i hi hbad hfirst => ?_, fun hgood => ?_⟩⟩
  · have hcheck := (s.badSymbol_eq_some i).2 ⟨hi, hbad, hfirst⟩
    simp only [exec, execJoin, hcheck]
    exact raise_eq_of_encode (by decide) _ _ s
  · have hcheck := s.badSymbol_eq_none.2 hgood
    obtain ⟨b, hb⟩ := s.zeroBuffer.putSymbols_frame s.k.toNat
    refine ⟨s.zeroBuffer.putSymbols s.k.toNat, by simp only [exec, execJoin, hcheck], by rw [hb]; rfl,
      fun p hp => ?_, fun j hj => ?_⟩
    · rw [State.streamBit_putSymbols, s.streamBit_zeroBuffer]
      exact if_congr (and_iff_left hp) rfl rfl
    · rw [s.zeroBuffer.byteAt_putSymbols_of_le s.k.toNat hj, s.byteAt_zeroBuffer, if_neg (Nat.not_lt.2 hj)]

end Sys2Proof.Machine
end

section
/-! The statements of 42_padding.md: the count, the descriptor and the marker that ENCLEN computes from a length (R100,
R101), and the length that DECLEN computes from them (R102, R103). -/

namespace Sys2Proof.Machine

/-! ### The length arithmetic -/

theorem descriptor_le (n : Nat) : descriptor n ≤ 10 :=
  Nat.le_of_lt_succ (Nat.mod_lt _ (by decide))

/-- The marker is present exactly when the last symbol is padded (R19). -/
theorem marker_eq_one_iff (n : Nat) : marker n = 1#1 ↔ descriptor n ≠ 0 := by
  unfold marker
  split
  case isTrue h => exact iff_of_true rfl h
  case isFalse h => exact iff_of_false (by decide) h

/-- 8 and 11 have no common factor, so only whole groups of eleven bytes fill their last symbol (R100). -/
theorem descriptor_eq_zero_iff (n : Nat) : descriptor n = 0 ↔ n % 11 = 0 := by
  unfold descriptor; omega

/-- A padded length's count and descriptor: the last symbol holds the bits that `K - 1` whole symbols leave (R100). -/
theorem bits_of_descriptor_ne_zero {n : Nat} (h : descriptor n ≠ 0) :
    8 * n = 11 * (symbolCount n - 1) + descriptor n ∧ 1 ≤ symbolCount n := by
  have length_pos : 0 < n := Nat.pos_of_ne_zero (by rintro rfl; exact h rfl)
  unfold symbolCount descriptor
  unfold descriptor at h
  omega

/-- An exact length's count: every symbol is full (R100). -/
theorem bits_of_descriptor_eq_zero {n : Nat} (h : descriptor n = 0) : 8 * n = 11 * symbolCount n := by
  unfold descriptor at h
  unfold symbolCount
  omega

/-- The table of R100, one entry per remainder of the length by 11. -/
theorem descriptor_eq_table (n : Nat) :
    descriptor n = [0, 8, 5, 2, 10, 7, 4, 1, 9, 6, 3].getD (n % 11) 0 := by
  have period : descriptor n = descriptor (n % 11) := (Nat.mul_mod_mod 8 n 11).symm
  have first_eleven : ∀ r < 11, descriptor r = [0, 8, 5, 2, 10, 7, 4, 1, 9, 6, 3].getD r 0 := by decide
  rw [period, first_eleven _ (Nat.mod_lt n (by decide))]

/-- The bits that a length's own count, marker and descriptor stand for are the bits of that length (R100, R102). -/
theorem dataBits_of_length (n : Nat) :
    dataBits (symbolCount n) (decide (marker n = 1#1)) (descriptor n) = 8 * n := by
  have le_ten := descriptor_le n
  unfold dataBits rawBitLen
  split
  case isTrue h =>
    obtain ⟨bits_eq, count_pos⟩ := bits_of_descriptor_ne_zero ((marker_eq_one_iff n).1 (of_decide_eq_true h))
    omega
  case isFalse h =>
    have exact_fit : descriptor n = 0 := by simpa [marker_eq_one_iff] using h
    exact (bits_of_descriptor_eq_zero exact_fit).symm

/-- The arithmetic of R103: DECLEN's length for what ENCLEN computes from a length is that length. -/
theorem byteLen_of_length (n : Nat) : byteLen (symbolCount n) (decide (marker n = 1#1)) (descriptor n) = n := by
  rw [byteLen, dataBits_of_length, Nat.mul_div_cancel_left n (by decide)]

/-! ### ENCLEN (R100, R101) -/

/-- The state that ENCLEN leaves. -/
def State.described (s : State) : State :=
  ((s.withK (BitVec.ofNat 12 (symbolCount s.n.toNat))).withR (BitVec.ofNat 4 (descriptor s.n.toNat))).withM
    (marker s.n.toNat)

theorem exec_enclen (s : State) : exec .enclen s = .next s.described := rfl

/-- The count fits `K`, as `N` is within the capacity. -/
theorem State.described_k_toNat {s : State} (hinv : StateInv s) : s.described.k.toNat = symbolCount s.n.toNat := by
  obtain ⟨hlegal, hn, -⟩ := hinv
  exact Nat.mod_eq_of_lt ((symbolCount_mono hn).trans_lt (State.smax_lt_of_legal hlegal))

theorem State.described_r_toNat (s : State) : s.described.r.toNat = descriptor s.n.toNat :=
  Nat.mod_eq_of_lt ((descriptor_le _).trans_lt (by decide))

theorem State.described_r_eq_zero_iff (s : State) : s.described.r = 0#4 ↔ descriptor s.n.toNat = 0 := by
  rw [← s.described_r_toNat, ← BitVec.toNat_inj, BitVec.toNat_zero]

/-- ENCLEN and SPLIT both read `N` and the bytes only, and leave the same `K`. -/
theorem exec_split_described (s : State) :
    ∃ t u, exec .split s.described = .next t ∧ exec .split s = .next u ∧ t = u.described :=
  ⟨_, _, rfl, rfl, rfl⟩

/-- Settles O46: the three registers take the functions of `N` that the model's arithmetic names. -/
theorem enclenComputesCountDescriptorMarker : Obligations.EnclenComputesCountDescriptorMarker := by
  refine ⟨by decide, fun s hinv => ?_⟩
  obtain ⟨t, u, ht, hu, heq⟩ := exec_split_described s
  exact ⟨s.described, exec_enclen s, rfl, State.described_k_toNat hinv, s.described_r_toNat,
    marker_eq_one_iff s.n.toNat, t, u, u.described, ht, hu, exec_enclen u, heq⟩

/-- The bits of a symbol's value, most significant first, are its stream bits (R32). -/
theorem State.get11Value_testBit (s : State) (i : Nat) {b : Nat} (hb : b < 11) :
    (s.get11Value i).testBit (10 - b) = s.streamBit (11 * i + b) := by
  rw [← s.symbol_toNat, BitVec.testBit_toNat, s.symbol_getLsbD i b hb]

/-- The last symbol of a padded length: the last `r` bits of the stream at its high end, then zeros (R100). -/
theorem State.lastSymbol_testBit {s : State} (h : descriptor s.n.toNat ≠ 0) {b : Nat} (hb : b < 11) :
    (s.get11Value (symbolCount s.n.toNat - 1)).testBit (10 - b) =
      if b < descriptor s.n.toNat then s.streamBit (8 * s.n.toNat - descriptor s.n.toNat + b) else false := by
  obtain ⟨bits_eq, -⟩ := bits_of_descriptor_ne_zero h
  rw [s.get11Value_testBit _ hb]
  split
  case isTrue => congr 1; omega
  case isFalse => exact State.streamBit_of_le (by omega)

/-- Settles O48: what ENCLEN leaves is the length arithmetic at `N`, case by case on the descriptor. -/
theorem descriptorSaysHowTheLastSymbolIsFilled : Obligations.DescriptorSaysHowTheLastSymbolIsFilled := by
  intro s hinv
  refine ⟨s.described, exec_enclen s, ?_⟩
  rw [ne_eq, s.described_r_eq_zero_iff, s.described_r_toNat, State.described_k_toNat hinv]
  refine ⟨descriptor_le _, fun hpadded => ?_, fun hexact => ?_, descriptor_eq_zero_iff _, descriptor_eq_table _⟩
  · obtain ⟨bits_eq, count_pos⟩ := bits_of_descriptor_ne_zero hpadded
    exact ⟨bits_eq, count_pos, fun b hb => State.lastSymbol_testBit hpadded hb⟩
  · have bits_eq := bits_of_descriptor_eq_zero hexact
    have eight_dvd : symbolCount s.n.toNat % 8 = 0 := by omega
    exact ⟨bits_eq, eight_dvd⟩

/-! ### DECLEN (R102, R103) -/

/-- The descriptor check of R102 fails: the marker is present and stands for no padding word, or there is no symbol. -/
def State.Malformed (s : State) : Prop := s.m = 1#1 ∧ (s.r.toNat < 1 ∨ 10 < s.r.toNat ∨ s.k = 0#12)

/-- The state that DECLEN leaves when it completes. -/
def State.lengthTaken (s : State) : State :=
  (s.withR (if s.m = 0#1 then 0#4 else s.r)).withN (BitVec.ofNat 13 s.declenValue)

/-- The length that `execDeclen` computes is the rule's. -/
theorem State.byteLen_eq_declenValue (s : State) :
    byteLen s.k.toNat (decide (s.m = 1#1)) s.r.toNat = s.declenValue := by
  simp only [byteLen, dataBits, rawBitLen, State.declenValue, decide_eq_true_eq]

theorem exec_declen_of_malformed {s : State} (h : s.Malformed) :
    exec .declen s = raise .malformedPadding (s.r.setWidth 16) .declen s := by
  obtain ⟨hm, hbad⟩ := h
  by_cases hr : s.r.toNat < 1 ∨ 10 < s.r.toNat
  · exact if_pos ⟨decide_eq_true hm, hr⟩
  · exact (if_neg (hr ·.2)).trans (if_pos ⟨decide_eq_true hm, by tauto⟩)

theorem exec_declen_of_not_malformed {s : State} (h : ¬ s.Malformed) :
    exec .declen s =
      if s.bmax < s.declenValue then raise .operandRange 0#16 .declen s else .next s.lengthTaken := by
  have hr : ¬ (decide (s.m = 1#1) ∧ (s.r.toNat < 1 ∨ 10 < s.r.toNat)) :=
    fun ⟨hm, hr⟩ => h ⟨of_decide_eq_true hm, hr.imp_right .inl⟩
  have hk : ¬ (decide (s.m = 1#1) ∧ s.k = 0#12) := fun ⟨hm, hk⟩ => h ⟨of_decide_eq_true hm, .inr (.inr hk)⟩
  have kept_or_cleared : (if decide (s.m = 1#1) then s else s.withR 0#4) =
      s.withR (if s.m = 0#1 then 0#4 else s.r) := by
    obtain hm | hm := BitVec.eq_zero_or_eq_one s.m
    · rw [hm]; rfl
    · rw [hm]; rfl
  simp only [exec, execDeclen]
  rw [if_neg hr, if_neg hk, s.byteLen_eq_declenValue, kept_or_cleared]
  rfl

/-- Settles O47: the two checks of R102 in their order, the second on the length by the rule's arithmetic; a length
within a legal capacity fits `N`. -/
theorem declenComputesTheLength : Obligations.DeclenComputesTheLength := by
  have hword : encode .declen = 0xD0000000#32 := by decide
  refine ⟨by decide, fun s hlegal => ⟨fun hm hbad => ?_, fun hgood => ⟨fun hgt => ?_, fun hle => ?_⟩⟩⟩
  · exact (exec_declen_of_malformed ⟨hm, hbad⟩).trans (raise_eq_of_encode hword _ _ s)
  · exact (exec_declen_of_not_malformed hgood).trans ((if_pos hgt).trans (raise_eq_of_encode hword _ _ s))
  · have length_lt : s.declenValue < 2 ^ 13 := (hle.trans hlegal.2).trans_lt (by decide)
    exact ⟨s.lengthTaken, (exec_declen_of_not_malformed hgood).trans (if_neg (Nat.not_lt.2 hle)), rfl,
      Nat.mod_eq_of_lt length_lt, rfl⟩

/-- What ENCLEN leaves passes DECLEN's descriptor check: with the marker the descriptor is not 0 and there is a
symbol. -/
theorem State.described_not_malformed {s : State} (hinv : StateInv s) : ¬ s.described.Malformed := by
  rintro ⟨hm, hbad⟩
  have padded : descriptor s.n.toNat ≠ 0 := (marker_eq_one_iff _).1 hm
  have le_ten := descriptor_le s.n.toNat
  obtain ⟨-, count_pos⟩ := bits_of_descriptor_ne_zero padded
  rw [← BitVec.toNat_inj, BitVec.toNat_zero, s.described_r_toNat, State.described_k_toNat hinv] at hbad
  omega

theorem State.described_declenValue {s : State} (hinv : StateInv s) : s.described.declenValue = s.n.toNat := by
  rw [← State.byteLen_eq_declenValue, s.described_r_toNat, State.described_k_toNat hinv]
  exact byteLen_of_length s.n.toNat

/-- Settles O49: both checks pass, since the length that DECLEN computes is `N`, which is within the capacity. -/
theorem declenUndoesEnclen : Obligations.DeclenUndoesEnclen := by
  intro s hinv
  have ⟨_, hn, _⟩ := hinv
  have length_eq := State.described_declenValue hinv
  have within : ¬ s.described.bmax < s.described.declenValue := by
    rw [length_eq]
    exact Nat.not_lt.2 hn
  refine ⟨s.described, s.described.lengthTaken, exec_enclen s,
    (exec_declen_of_not_malformed (State.described_not_malformed hinv)).trans (if_neg within), ?_, rfl⟩
  rw [State.lengthTaken, State.withN_n, length_eq, BitVec.ofNat_toNat, BitVec.setWidth_eq]

end Sys2Proof.Machine
end

section
/-! The statements of 60_exceptions.md: which words fault and with what (R131, R137), that a fault writes the three fault
registers and nothing else (R135), and that a halted block ignores every word (R136). -/

namespace Sys2Proof

/-! ### The word in FCMD -/

/-- A row makes a command whose word has the row's opcode and the fields of the row's format, the others zero (R53,
R60). -/
theorem encode_make {row : Row} (hmem : row ∈ opcodeTable) (idx : Idx) (val : Cell16) :
    encode (row.make idx val) = assemble (opField row.pattern) (if row.format = .z then 0#12 else idx)
      (if row.format = .z ∨ row.format = .x then 0#16 else val) := by
  simp only [opcodeTable, List.mem_append, List.mem_cons, List.not_mem_nil, or_false] at hmem
  obtain (rfl | rfl | rfl | rfl | rfl | rfl | rfl) | (rfl | rfl | rfl | rfl | rfl | rfl | rfl) := hmem
  all_goals rfl

/-- A word that meets format Z has a zero `idx` field (R53). -/
theorem Format.idx_of_accepts {f : Format} {cmd : Word} (h : f.Accepts cmd) :
    (if f = .z then 0#12 else idxField cmd) = idxField cmd := by
  obtain ⟨hidx, -⟩ := h
  cases f with
  | z => exact hidx.symm.trans BitVec.and_allOnes
  | x => rfl
  | xb => rfl
  | xv => rfl

/-- A word that meets format Z or X has a zero `val` field (R53). -/
theorem Format.val_of_accepts {f : Format} {cmd : Word} (h : f.Accepts cmd) :
    (if f = .z ∨ f = .x then 0#16 else valField cmd) = valField cmd := by
  obtain ⟨-, hval⟩ := h
  cases f with
  | z => exact hval.symm.trans BitVec.and_allOnes
  | x => exact hval.symm.trans BitVec.and_allOnes
  | xb => rfl
  | xv => rfl

/-- The command that a word decodes to has that word (R55), so a fault latches the word presented. -/
theorem encode_of_decode {cmd : Word} {i : Instr} (h : decode cmd = .command i) : encode i = cmd := by
  obtain ⟨row, hmem, hselects⟩ := (decode_command_iff_selects cmd).1 ⟨i, h⟩
  obtain rfl : row.make (idxField cmd) (valField cmd) = i :=
    Decoded.command.inj ((decode_of_selects hmem hselects).symm.trans h)
  obtain ⟨opcode_eq, haccepts⟩ := (selects_iff row hmem cmd).1 hselects
  rw [encode_make hmem, Format.idx_of_accepts haccepts, Format.val_of_accepts haccepts, ← opcode_eq, assemble_fields]

end Sys2Proof

namespace Sys2Proof.Machine

/-! ### Outcomes that raise and outcomes that do not -/

theorem Cause.code_bounds (c : Cause) : 1 ≤ c.code.toNat ∧ c.code.toNat ≤ 4 := by cases c <;> decide

theorem Cause.code_ne_zero (c : Cause) : c.code ≠ 0#3 := by cases c <;> decide

theorem Cause.code_injective : Function.Injective Cause.code := by
  intro c c' h
  cases c <;> cases c' <;> revert h <;> decide

/-- The cause and the information value are read off the fault registers. -/
theorem State.latch_eq_latch_iff {c₀ c : Cause} {info₀ info : BitVec 16} {cmd : Word} {s : State} :
    s.latch c₀ info₀ cmd = s.latch c info cmd ↔ c = c₀ ∧ info = info₀ := by
  constructor
  · intro h
    exact ⟨Cause.code_injective (congrArg State.fault h).symm, (congrArg State.finfo h).symm⟩
  · rintro ⟨rfl, rfl⟩; rfl

theorem raise_eq_raise_iff {c₀ c : Cause} {info₀ info : BitVec 16} {i : Instr} {s : State} :
    raise c₀ info₀ i s = raise c info i s ↔ c = c₀ ∧ info = info₀ := by
  rw [raise_eq, raise_eq, Host.Outcome.next.injEq, State.latch_eq_latch_iff]

/-- An outcome that leaves the block running raises nothing. -/
theorem next_ne_raise {t : State} (hrun : Running t) (c : Cause) (info : BitVec 16) (i : Instr) (s : State) :
    Host.Outcome.next t ≠ raise c info i s := by
  intro h
  have fault_eq : t.fault = c.code := congrArg State.fault (Host.Outcome.next.inj h)
  exact c.code_ne_zero (fault_eq.symm.trans hrun)

/-- A command with one check raises exactly when the check fails. -/
theorem ite_raise_eq_raise_iff {p : Prop} [Decidable p] {c₀ c : Cause} {info₀ info : BitVec 16} {i : Instr}
    {s t : State} (hrun : Running t) :
    (if p then raise c₀ info₀ i s else .next t) = raise c info i s ↔ c = c₀ ∧ info = info₀ ∧ p := by
  by_cases hp : p
  · rw [if_pos hp, raise_eq_raise_iff]
    simp only [hp, and_true]
  · rw [if_neg hp]
    simp only [next_ne_raise hrun, hp, and_false]

/-! ### Each command raises exactly what R131 lists -/

theorem exec_setr_eq_raise_iff {s : State} (hrun : Running s) (reg : Idx) (val : Cell16) (c : Cause)
    (info : BitVec 16) :
    exec (.setr reg val) s = raise c info (.setr reg val) s ↔ CommandFaults (.setr reg val) s c info := by
  have range_check {x : OperandReg} {max : Nat} (hreg : reg.toNat = x.number) (hmax : s.operandMax? x = some max) :
      exec (.setr reg val) s = raise c info (.setr reg val) s ↔
        c = .operandRange ∧ info = 0#16 ∧ max < val.toNat := by
    obtain ⟨n, k, r, m, hw⟩ := s.writeOperand_frame val x
    rw [exec_setr hreg hmax, ite_raise_eq_raise_iff (hw ▸ hrun)]
  obtain hge | hn | hk | hr | hm :
      4 ≤ reg.toNat ∨ reg.toNat = 0 ∨ reg.toNat = 1 ∨ reg.toNat = 2 ∨ reg.toNat = 3 := by omega
  · rw [exec_setr_unwritable hge, raise_eq_raise_iff]
    simp [CommandFaults, hge, show reg.toNat ≠ 0 by omega, show reg.toNat ≠ 1 by omega,
      show reg.toNat ≠ 2 by omega, show reg.toNat ≠ 3 by omega]
  · simp [range_check (x := .n) hn rfl, CommandFaults, hn]
  · simp [range_check (x := .k) hk rfl, CommandFaults, hk]
  · simp [range_check (x := .r) hr rfl, CommandFaults, hr]
  · simp [range_check (x := .m) hm rfl, CommandFaults, hm]

/-- The numbers below 6 name a register (R17). -/
theorem operandReg?_of_lt {reg : Idx} (h : reg.toNat < 6) : ∃ x, operandReg? reg = some x := by
  obtain hn | hk | hr | hm | hcapb | hcaps : reg.toNat = 0 ∨ reg.toNat = 1 ∨ reg.toNat = 2 ∨ reg.toNat = 3 ∨
      reg.toNat = 4 ∨ reg.toNat = 5 := by omega
  · exact ⟨.n, operandReg?_of_number hn⟩
  · exact ⟨.k, operandReg?_of_number hk⟩
  · exact ⟨.r, operandReg?_of_number hr⟩
  · exact ⟨.m, operandReg?_of_number hm⟩
  · exact ⟨.capb, operandReg?_of_number hcapb⟩
  · exact ⟨.caps, operandReg?_of_number hcaps⟩

theorem exec_getr_eq_raise_iff {s : State} (hrun : Running s) (reg : Idx) (c : Cause) (info : BitVec 16) :
    exec (.getr reg) s = raise c info (.getr reg) s ↔ CommandFaults (.getr reg) s c info := by
  by_cases hge : 6 ≤ reg.toNat
  · simp [exec_getr_reserved s hge, raise_eq_raise_iff, CommandFaults, hge]
  · obtain ⟨x, hx⟩ := operandReg?_of_lt (Nat.not_le.1 hge)
    have hrun' : Running (s.withOut (s.operandValue x)) := hrun
    simp [exec, execGetr, hx, next_ne_raise hrun', CommandFaults, hge]

theorem exec_put11_eq_raise_iff {s : State} (hrun : Running s) (idx : Idx) (val : Cell16) (c : Cause)
    (info : BitVec 16) :
    exec (.put11 idx val) s = raise c info (.put11 idx val) s ↔ CommandFaults (.put11 idx val) s c info := by
  obtain ⟨b, hb⟩ := s.putSymbol_frame idx.toNat (val.setWidth 11)
  have check_flipped : exec (.put11 idx val) s = if 2047 < val.toNat then
      raise .invalidSymbol (idx.setWidth 16) (.put11 idx val) s else .next (s.putSymbol idx.toNat (val.setWidth 11)) := by
    simp only [exec, execPut11, isSymbol, decide_eq_true_eq, ← Nat.not_lt, ite_not]
  rw [check_flipped]
  exact ite_raise_eq_raise_iff (hb ▸ hrun)

/-- JOIN's check finds the index that R131 describes. -/
theorem commandFaults_join_iff (s : State) (c : Cause) (info : BitVec 16) :
    CommandFaults .join s c info ↔ c = .invalidSymbol ∧ ∃ j, s.badSymbol = some j ∧ info = BitVec.ofNat 16 j := by
  simp only [CommandFaults, State.badSymbol_eq_some]
  refine and_congr_right fun _ => exists_congr fun j => ?_
  tauto

theorem exec_join_eq_raise_iff {s : State} (hrun : Running s) (c : Cause) (info : BitVec 16) :
    exec .join s = raise c info .join s ↔ CommandFaults .join s c info := by
  rw [commandFaults_join_iff]
  simp only [exec, execJoin]
  cases s.badSymbol with
  | none =>
    obtain ⟨b, hb⟩ := s.zeroBuffer.putSymbols_frame s.k.toNat
    have hrun' : Running (s.zeroBuffer.putSymbols s.k.toNat) := hb ▸ hrun
    simp [next_ne_raise hrun']
  | some j => simp [raise_eq_raise_iff]

theorem exec_declen_eq_raise_iff {s : State} (hrun : Running s) (c : Cause) (info : BitVec 16) :
    exec .declen s = raise c info .declen s ↔ CommandFaults .declen s c info := by
  change _ ↔ (c = .malformedPadding ∧ info = s.r.setWidth 16 ∧ s.Malformed) ∨
    (c = .operandRange ∧ info = 0#16 ∧ ¬ s.Malformed ∧ s.bmax < s.declenValue)
  by_cases hmal : s.Malformed
  · simp [exec_declen_of_malformed hmal, raise_eq_raise_iff, hmal]
  · have hrun' : Running s.lengthTaken := hrun
    simp [exec_declen_of_not_malformed hmal, ite_raise_eq_raise_iff hrun', hmal]

/-- A command of a running block raises a cause with an information value exactly under the conditions of R131. -/
theorem exec_eq_raise_iff {s : State} (hrun : Running s) (i : Instr) (c : Cause) (info : BitVec 16) :
    exec i s = raise c info i s ↔ CommandFaults i s c info := by
  have never {i : Instr} {t : State} (hrun' : Running t) : Host.Outcome.next t = raise c info i s ↔ False :=
    iff_false_intro (next_ne_raise hrun' c info i s)
  cases i with
  | nop => exact never hrun
  | wrb idx val => exact ite_raise_eq_raise_iff (p := s.bmax ≤ idx.toNat) hrun
  | rdb idx => exact ite_raise_eq_raise_iff (p := s.bmax ≤ idx.toNat) hrun
  | wrs idx val => exact ite_raise_eq_raise_iff (p := s.smax ≤ idx.toNat) hrun
  | rds idx => exact ite_raise_eq_raise_iff (p := s.smax ≤ idx.toNat) hrun
  | setr reg val => exact exec_setr_eq_raise_iff hrun reg val c info
  | getr reg => exact exec_getr_eq_raise_iff hrun reg c info
  | get11 idx => exact never hrun
  | put11 idx val => exact exec_put11_eq_raise_iff hrun idx val c info
  | split => exact never hrun
  | join => exact exec_join_eq_raise_iff hrun c info
  | shl11 => exact never hrun
  | enclen => exact never hrun
  | declen => exact exec_declen_eq_raise_iff hrun c info

/-! ### The same at the port -/

/-- A running block that is presented a command's word runs the command (R50). -/
theorem present_of_command {s : State} {cmd : Word} {i : Instr} (hrun : Running s) (hd : decode cmd = .command i) :
    present cmd s = exec i s := by
  simp only [present, hrun, hd, ne_eq, not_true_eq_false, if_false]

/-- A word presented to a running block either latches a fault, with that word and nothing else written (R135), or
completes. -/
theorem present_next {s : State} (hrun : Running s) (cmd : Word) :
    ∃ t, present cmd s = .next t ∧ ((∃ c info, t = s.latch c info cmd) ∨ Completed s t) := by
  cases hd : decode cmd with
  | command i =>
    obtain ⟨t, ht, hcases⟩ := exec_next i s
    rw [encode_of_decode hd] at hcases
    exact ⟨t, (present_of_command hrun hd).trans ht, hcases⟩
  | illegal why => exact ⟨_, present_of_illegal hrun hd, .inl ⟨_, _, rfl⟩⟩

/-- A word presented to a running block latches a cause with an information value exactly under the conditions of
R131. -/
theorem present_eq_latch_iff {s : State} (hrun : Running s) (cmd : Word) (c : Cause) (info : BitVec 16) :
    present cmd s = .next (s.latch c info cmd) ↔ WordFaults cmd s c info := by
  unfold WordFaults
  cases hd : decode cmd with
  | command i =>
    rw [present_of_command hrun hd, ← encode_of_decode hd]
    exact exec_eq_raise_iff hrun i c info
  | illegal why =>
    rw [present_of_illegal hrun hd, Host.Outcome.next.injEq, State.latch_eq_latch_iff]

/-- Settles O17: the port latches exactly what R131 lists, and a word that latches nothing completes. -/
theorem wordsFaultExactlyAsListed : Obligations.WordsFaultExactlyAsListed := by
  refine ⟨by decide, fun s cmd hrun => ⟨fun c info hfaults => (present_eq_latch_iff hrun cmd c info).2 hfaults,
    fun hnone => ?_⟩⟩
  obtain ⟨t, ht, ⟨c, info, rfl⟩ | hdone⟩ := present_next hrun cmd
  · exact absurd ((present_eq_latch_iff hrun cmd c info).1 ht) (hnone c info)
  · exact ⟨t, ht, hdone.fault.trans hrun, hdone.finfo, hdone.fcmd⟩

/-- Settles O18: a word that completes leaves the block running, so the word that halted it latched a fault. -/
theorem faultsArePrecise : Obligations.FaultsArePrecise := by
  intro s t cmd rest hhost hrun hstep hhalted
  have hrun' : Running (s.withHost rest) := hrun
  obtain ⟨u, hu, hcases⟩ := present_next hrun' cmd
  obtain rfl : u = t := Host.Outcome.next.inj (hu.symm.trans ((step_of_command hhost).symm.trans hstep))
  obtain ⟨c, info, rfl⟩ | hdone := hcases
  · obtain ⟨one_le, le_four⟩ := c.code_bounds
    exact ⟨c.code, info, one_le, le_four, rfl⟩
  · exact absurd (hdone.fault.trans hrun') hhalted

/-! ### The halted block (R136) -/

/-- A halted block uses a word up and does nothing with it. -/
theorem presentAll_cons_of_halted {s : State} (hhalted : s.fault ≠ 0#3) (cmd : Word) (cmds : List Word) :
    presentAll s (cmd :: cmds) = presentAll s cmds := by
  have ignored : step (s.given (cmd :: cmds)) = .next (s.given cmds) := if_pos hhalted
  rw [presentAll, List.length_cons, steps, ignored]
  rfl

/-- Settles O8, by induction on the words. -/
theorem haltedBlockIgnoresEveryWord : Obligations.HaltedBlockIgnoresEveryWord := by
  intro s cmds hhalted
  induction cmds with
  | nil => rfl
  | cons cmd cmds ih => rw [presentAll_cons_of_halted hhalted, ih]

end Sys2Proof.Machine
end

section
/-! The statements of 70_reset_and_hazards.md: the state after a reset stands for the empty input, which the whole-buffer
commands take without a fault (R151). -/

namespace Sys2Proof.Machine

/-! ### The commands on an empty ByteBuffer and an empty symbol sequence -/

/-- SPLIT writes the cells below the symbol count only, and an empty ByteBuffer has no symbols (R86). -/
theorem exec_split_of_empty {s : State} (hn : s.n = 0#13) :
    ∃ t, exec .split s = .next t ∧ t.k = 0#12 ∧ t.fault = s.fault ∧ ∀ i, t.symAt i = s.symAt i := by
  have no_symbol : symbolCount s.n.toNat = 0 := by rw [hn]; rfl
  refine ⟨_, rfl, congrArg (BitVec.ofNat 12) no_symbol, rfl, fun i => ?_⟩
  rw [State.symAt_withK, s.symAt_setPrefix, no_symbol, if_neg i.not_lt_zero]

theorem State.described_of_empty {s : State} (hn : s.n = 0#13) :
    s.described = ((s.withK 0#12).withR 0#4).withM 0#1 := by
  rw [State.described, hn]; rfl

/-- Without a marker DECLEN has no descriptor to check, and no symbols have length 0, which is within any capacity
(R102). -/
theorem exec_declen_of_empty {s : State} (hk : s.k = 0#12) (hm : s.m = 0#1) :
    exec .declen s = .next ((s.withR 0#4).withN 0#13) := by
  have wellFormed : ¬ s.Malformed := by
    rintro ⟨hm', -⟩
    exact absurd (hm.symm.trans hm') (by decide)
  have length_eq : s.declenValue = 0 := by simp [State.declenValue, hk, hm]
  have within : ¬ s.bmax < s.declenValue := length_eq ▸ Nat.not_lt_zero _
  rw [exec_declen_of_not_malformed wellFormed, if_neg within, State.lengthTaken, length_eq, if_pos hm]

/-- With no symbol JOIN has none to refuse, and with an empty ByteBuffer every cell is from `N` on (R88). -/
theorem exec_join_of_empty {s : State} (hk : s.k = 0#12) (hn : s.n = 0#13) :
    ∃ t, exec .join s = .next t ∧ t.fault = s.fault ∧ ∀ j, t.byteAt j = s.byteAt j := by
  obtain ⟨-, laws⟩ := joinWritesTheBytes
  obtain ⟨-, completes⟩ := laws s
  obtain ⟨t, ht, hframe, -, kept⟩ := completes fun i hi => absurd hi (by simp [hk])
  exact ⟨t, ht, (congrArg State.fault hframe :), fun j => kept j (by simp [hn])⟩

theorem State.byteAt_shifted_of_empty {s : State} (hn : s.n = 0#13) (j : Nat) : s.shifted.byteAt j = s.byteAt j := by
  rw [s.byteAt_shifted, hn, BitVec.toNat_zero, if_neg j.not_lt_zero]

/-! ### The state after a reset -/

/-- Settles O52: a reset leaves `N`, `K`, `M` and `FAULT` at 0, the empty input of each command. -/
theorem emptyInputAfterReset : Obligations.EmptyInputAfterReset := fun s =>
  ⟨exec_split_of_empty s.takeReset_n,
    ⟨_, exec_enclen s.takeReset, by simp [State.described_of_empty s.takeReset_n]⟩,
    ⟨_, exec_declen_of_empty s.takeReset_k s.takeReset_m, rfl, rfl⟩,
    exec_join_of_empty s.takeReset_k s.takeReset_n,
    ⟨_, exec_shl11 s.takeReset, rfl, State.byteAt_shifted_of_empty s.takeReset_n⟩⟩

end Sys2Proof.Machine
end

section
/-! The remaining statements of 30_encoding.md: decode and encode undo each other, at most one row selects a word (R54,
R55), the words and lines written out in the spec, and the expansion of the pseudo-commands (R60, R61). -/

namespace Sys2Proof

/-! ### Decode and encode -/

/-- Every command has a row of the opcode map of its own (R54). -/
theorem ownRow (i : Instr) : Laws.OwnRow.Statement i := by
  cases i with
  | nop => exact Laws.OwnRow.nop
  | wrb idx val => exact Laws.OwnRow.wrb idx val
  | rdb idx => exact Laws.OwnRow.rdb idx
  | wrs idx val => exact Laws.OwnRow.wrs idx val
  | rds idx => exact Laws.OwnRow.rds idx
  | setr reg val => exact Laws.OwnRow.setr reg val
  | getr reg => exact Laws.OwnRow.getr reg
  | get11 idx => exact Laws.OwnRow.get11 idx
  | put11 idx val => exact Laws.OwnRow.put11 idx val
  | split => exact Laws.OwnRow.split
  | join => exact Laws.OwnRow.join
  | shl11 => exact Laws.OwnRow.shl11
  | enclen => exact Laws.OwnRow.enclen
  | declen => exact Laws.OwnRow.declen

/-- Decoding undoes encoding (R55, R60). -/
theorem decode_encode {i : Instr} (hwf : i.WellFormed = true) : decode (encode i) = .command i :=
  decode_encode_of_ownRow (ownRow i) hwf

/-- Settles O1: each command's word is selected by the command's own row. -/
theorem decodeOfEncodeIsTheCommand : Obligations.DecodeOfEncodeIsTheCommand := fun _ => decode_encode

/-- A row makes a well-formed command of fields that meet its format: only WRB's `val` could violate it (R53). -/
theorem wellFormed_make {row : Row} (hmem : row ∈ opcodeTable) (idx : Idx) {val : Cell16}
    (hval : val &&& row.format.valMask = 0#16) : (row.make idx val).WellFormed = true := by
  simp only [opcodeTable, List.mem_append, List.mem_cons, List.not_mem_nil, or_false] at hmem
  obtain (rfl | rfl | rfl | rfl | rfl | rfl | rfl) | (rfl | rfl | rfl | rfl | rfl | rfl | rfl) := hmem
  case inl.inr.inl => exact beq_iff_eq.2 (Laws.highByte_zero.2 hval)
  all_goals rfl

/-- A word decodes to a well-formed command (R53, R55). -/
theorem wellFormed_of_decode {cmd : Word} {i : Instr} (h : decode cmd = .command i) : i.WellFormed = true := by
  obtain ⟨row, hmem, hselects⟩ := (decode_command_iff_selects cmd).1 ⟨i, h⟩
  obtain rfl : row.make (idxField cmd) (valField cmd) = i :=
    Decoded.command.inj ((decode_of_selects hmem hselects).symm.trans h)
  obtain ⟨-, -, hval⟩ := (selects_iff row hmem cmd).1 hselects
  exact wellFormed_make hmem _ hval

/-- Settles O2: the row that selects the word accepts its fields, and the command's word is made of the same fields. -/
theorem encodeOfDecodeIsTheWord : Obligations.EncodeOfDecodeIsTheWord :=
  fun _ _ h => ⟨wellFormed_of_decode h, encode_of_decode h⟩

/-- Settles O3: both rows have the word's opcode, and no two rows share one. -/
theorem atMostOneRowSelectsAWord : Obligations.AtMostOneRowSelectsAWord := by
  intro cmd row row' hmem hmem' hselects hselects'
  have opcode_eq : opField row.pattern = opField row'.pattern :=
    ((selects_iff row hmem cmd).1 hselects).1.symm.trans ((selects_iff row' hmem' cmd).1 hselects').1
  exact List.inj_on_of_nodup_map (List.pairwise_map.2 opcodes_distinct) hmem hmem' opcode_eq

/-- Settles O5: each word is decoded by evaluating the model. -/
theorem specWordsDecodeToTheirCommands : Obligations.SpecWordsDecodeToTheirCommands := by
  unfold Obligations.SpecWordsDecodeToTheirCommands
  decide

end Sys2Proof

namespace Sys2Proof.Machine

/-! ### The pseudo-commands and the texts -/

/-- A count or an index that fits its field is exact there. -/
theorem toNat_ofNat_of_lt {w x : Nat} (h : x < 2 ^ w) : (BitVec.ofNat w x).toNat = x := by
  rw [BitVec.toNat_ofNat, Nat.mod_eq_of_lt h]

/-- The writes of LOADB, each byte with its position (R61). -/
theorem writeBytes_eq_map_zipIdx (j : Nat) (bytes : List Byte) :
    writeBytes j bytes = (bytes.zipIdx j).map fun p => .wrb (BitVec.ofNat 12 p.2) (p.1.setWidth 16) := by
  induction bytes generalizing j with
  | nil => rfl
  | cons b bytes ih => rw [writeBytes, ih, List.zipIdx_cons, List.map_cons]

/-- The writes of LOADS, each value with its position (R61). -/
theorem writeCells_eq_map_zipIdx (i : Nat) (cells : List Cell16) :
    writeCells i cells = (cells.zipIdx i).map fun p => .wrs (BitVec.ofNat 12 p.2) p.1 := by
  induction cells generalizing i with
  | nil => rfl
  | cons v cells ih => rw [writeCells, ih, List.zipIdx_cons, List.map_cons]

/-- Settles O56: the writes are numbered from 0, and up to 4096 of them fit the `idx` field. -/
theorem pseudoCommandsExpandAsListed : Obligations.PseudoCommandsExpandAsListed := by
  refine ⟨rfl, rfl, fun bytes hwf => ?_, fun cells hwf => ?_⟩
  · have length_le : bytes.length ≤ 4096 := of_decide_eq_true hwf
    exact ⟨congrArg _ (writeBytes_eq_map_zipIdx 0 bytes), toNat_ofNat_of_lt (length_le.trans_lt (by decide)),
      fun j hj => toNat_ofNat_of_lt (hj.trans_le length_le)⟩
  · have length_le : cells.length ≤ 4096 := of_decide_eq_true hwf
    exact ⟨congrArg _ (writeCells_eq_map_zipIdx 0 cells), toNat_ofNat_of_lt (length_le.trans_lt (by decide)),
      fun i hi => toNat_ofNat_of_lt (hi.trans_le length_le)⟩

/-- Settles O58: each line is assembled by evaluating the model. -/
theorem assemblerExamplesHaveTheListedWords : Obligations.AssemblerExamplesHaveTheListedWords := by
  unfold Obligations.AssemblerExamplesHaveTheListedWords
  decide

end Sys2Proof.Machine
end

section
/-! What one command can do, said once for all fourteen: it faults under a condition of R131, or it has the effect of
its rule. With it the statements of 10_state.md on the invariant (R29), on the writers of the registers (R15 to R19) and
of the memory cells (R11). -/

namespace Sys2Proof.Machine

/-! ### The effect of a command -/

/-- The state that SPLIT leaves. -/
def State.regrouped (s : State) : State :=
  (s.withSym (s.sym.setPrefix (symbolCount s.n.toNat) fun i => (s.symbol i).setWidth 16)).withK
    (BitVec.ofNat 12 (symbolCount s.n.toNat))

/-- The state that JOIN leaves when its check passes. -/
def State.rejoined (s : State) : State := s.zeroBuffer.putSymbols s.k.toNat

/-- In `s` the command meets no condition of R131, and it leaves `t`. -/
inductive Effect (s : State) : Instr → State → Prop where
  | nop : Effect s .nop s
  | wrb {idx : Idx} (val : Cell16) (inRange : idx.toNat < s.bmax) :
      Effect s (.wrb idx val) (s.writeByte idx.toNat (val.setWidth 8))
  | rdb {idx : Idx} (inRange : idx.toNat < s.bmax) :
      Effect s (.rdb idx) (s.withOut ((s.byteAt idx.toNat).setWidth 16))
  | wrs {idx : Idx} (val : Cell16) (inRange : idx.toNat < s.smax) :
      Effect s (.wrs idx val) (s.writeSym idx.toNat val)
  | rds {idx : Idx} (inRange : idx.toNat < s.smax) : Effect s (.rds idx) (s.withOut (s.symAt idx.toNat))
  | setr {reg : Idx} {val : Cell16} {x : OperandReg} {max : Nat} (named : reg.toNat = x.number)
      (writable : s.operandMax? x = some max) (inRange : val.toNat ≤ max) :
      Effect s (.setr reg val) (s.writeOperand val x)
  | getr {reg : Idx} {x : OperandReg} (named : reg.toNat = x.number) :
      Effect s (.getr reg) (s.withOut (s.operandValue x))
  | get11 (idx : Idx) : Effect s (.get11 idx) (s.withOut ((s.symbol idx.toNat).setWidth 16))
  | put11 (idx : Idx) {val : Cell16} (isSym : val.toNat ≤ 2047) :
      Effect s (.put11 idx val) (s.putSymbol idx.toNat (val.setWidth 11))
  | split : Effect s .split s.regrouped
  | join (allSymbols : s.badSymbol = none) : Effect s .join s.rejoined
  | shl11 : Effect s .shl11 s.shifted
  | enclen : Effect s .enclen s.described
  | declen (wellFormed : ¬ s.Malformed) (inRange : s.declenValue ≤ s.bmax) : Effect s .declen s.lengthTaken

theorem exec_of_effect {i : Instr} {s t : State} (h : Effect s i t) : exec i s = .next t := by
  cases h with
  | nop => rfl
  | wrb val inRange => exact if_neg (Nat.not_le.2 inRange)
  | rdb inRange => exact if_neg (Nat.not_le.2 inRange)
  | wrs val inRange => exact if_neg (Nat.not_le.2 inRange)
  | rds inRange => exact if_neg (Nat.not_le.2 inRange)
  | setr named writable inRange => exact (exec_setr named writable).trans (if_neg (Nat.not_lt.2 inRange))
  | getr named => exact exec_getr s named
  | get11 idx => rfl
  | put11 idx isSym => exact if_pos (decide_eq_true isSym)
  | split => rfl
  | join allSymbols => simp only [exec, execJoin, allSymbols, State.rejoined]
  | shl11 => rfl
  | enclen => rfl
  | declen wellFormed inRange => exact (exec_declen_of_not_malformed wellFormed).trans (if_neg (Nat.not_lt.2 inRange))

/-- DECLEN's conditions of R131: the descriptor check, then the length. -/
theorem commandFaults_declen_iff (s : State) (c : Cause) (info : BitVec 16) :
    CommandFaults .declen s c info ↔ (c = .malformedPadding ∧ info = s.r.setWidth 16 ∧ s.Malformed) ∨
      (c = .operandRange ∧ info = 0#16 ∧ ¬ s.Malformed ∧ s.bmax < s.declenValue) := Iff.rfl

/-- A command raises what R131 lists, whatever the fault registers hold. -/
theorem exec_of_commandFaults {i : Instr} {s : State} {c : Cause} {info : BitVec 16} (h : CommandFaults i s c info) :
    exec i s = .next (s.latch c info (encode i)) := by
  rw [← raise_eq]
  cases i with
  | nop => exact h.elim
  | wrb idx val => obtain ⟨rfl, rfl, hge⟩ := h; exact if_pos hge
  | rdb idx => obtain ⟨rfl, rfl, hge⟩ := h; exact if_pos hge
  | wrs idx val => obtain ⟨rfl, rfl, hge⟩ := h; exact if_pos hge
  | rds idx => obtain ⟨rfl, rfl, hge⟩ := h; exact if_pos hge
  | setr reg val =>
    obtain ⟨rfl, rfl, hge⟩ | ⟨rfl, rfl, ⟨hreg, hlt⟩ | ⟨hreg, hlt⟩ | ⟨hreg, hlt⟩ | ⟨hreg, hlt⟩⟩ := h
    · exact exec_setr_unwritable hge
    · exact (exec_setr (x := .n) hreg rfl).trans (if_pos hlt)
    · exact (exec_setr (x := .k) hreg rfl).trans (if_pos hlt)
    · exact (exec_setr (x := .r) hreg rfl).trans (if_pos hlt)
    · exact (exec_setr (x := .m) hreg rfl).trans (if_pos hlt)
  | getr reg => obtain ⟨rfl, rfl, hge⟩ := h; exact exec_getr_reserved s hge
  | get11 idx => exact h.elim
  | put11 idx val =>
    obtain ⟨rfl, rfl, hlt⟩ := h
    exact if_neg (by simpa [isSymbol] using hlt)
  | split => exact h.elim
  | join =>
    obtain ⟨rfl, j, hj, rfl⟩ := (commandFaults_join_iff s c info).1 h
    simp only [exec, execJoin, hj]
  | shl11 => exact h.elim
  | enclen => exact h.elim
  | declen =>
    obtain ⟨rfl, rfl, hmal⟩ | ⟨rfl, rfl, hmal, hlt⟩ := (commandFaults_declen_iff s c info).1 h
    · exact exec_declen_of_malformed hmal
    · exact (exec_declen_of_not_malformed hmal).trans (if_pos hlt)

/-- SETR faults or writes a register. -/
theorem setr_faults_or_effect (reg : Idx) (val : Cell16) (s : State) :
    (∃ c info, CommandFaults (.setr reg val) s c info) ∨ ∃ t, Effect s (.setr reg val) t := by
  by_cases hbad : ∃ c info, CommandFaults (.setr reg val) s c info
  · exact .inl hbad
  · refine .inr ?_
    simp only [CommandFaults, not_exists] at hbad
    obtain hge | hn | hk | hr | hm :
        4 ≤ reg.toNat ∨ reg.toNat = 0 ∨ reg.toNat = 1 ∨ reg.toNat = 2 ∨ reg.toNat = 3 := by omega
    · exact absurd (.inl ⟨rfl, rfl, hge⟩) (hbad .illegalCommand 0#16)
    · exact ⟨_, .setr (x := .n) hn rfl (by simpa [hn] using hbad .operandRange 0#16)⟩
    · exact ⟨_, .setr (x := .k) hk rfl (by simpa [hk] using hbad .operandRange 0#16)⟩
    · exact ⟨_, .setr (x := .r) hr rfl (by simpa [hr] using hbad .operandRange 0#16)⟩
    · exact ⟨_, .setr (x := .m) hm rfl (by simpa [hm] using hbad .operandRange 0#16)⟩

/-- A register is found by its own number only (R17). -/
theorem operandReg?_eq_some_iff {reg : Idx} {x : OperandReg} : operandReg? reg = some x ↔ reg.toNat = x.number := by
  refine ⟨fun h => ?_, operandReg?_of_number⟩
  unfold operandReg? at h
  split at h
  case h_7 => cases h
  all_goals
    obtain rfl := Option.some.inj h
    assumption

/-- Every command faults or has its effect. -/
theorem commandFaults_or_effect (i : Instr) (s : State) :
    (∃ c info, CommandFaults i s c info) ∨ ∃ t, Effect s i t := by
  cases i with
  | nop => exact .inr ⟨_, .nop⟩
  | wrb idx val => exact (Nat.lt_or_ge idx.toNat s.bmax).symm.imp (⟨_, _, rfl, rfl, ·⟩) (⟨_, .wrb val ·⟩)
  | rdb idx => exact (Nat.lt_or_ge idx.toNat s.bmax).symm.imp (⟨_, _, rfl, rfl, ·⟩) (⟨_, .rdb ·⟩)
  | wrs idx val => exact (Nat.lt_or_ge idx.toNat s.smax).symm.imp (⟨_, _, rfl, rfl, ·⟩) (⟨_, .wrs val ·⟩)
  | rds idx => exact (Nat.lt_or_ge idx.toNat s.smax).symm.imp (⟨_, _, rfl, rfl, ·⟩) (⟨_, .rds ·⟩)
  | setr reg val => exact setr_faults_or_effect reg val s
  | getr reg =>
    obtain hlt | hge := Nat.lt_or_ge reg.toNat 6
    · obtain ⟨x, hx⟩ := operandReg?_of_lt hlt
      exact .inr ⟨_, .getr (operandReg?_eq_some_iff.1 hx)⟩
    · exact .inl ⟨_, _, rfl, rfl, hge⟩
  | get11 idx => exact .inr ⟨_, .get11 idx⟩
  | put11 idx val => exact (Nat.lt_or_ge 2047 val.toNat).imp (⟨_, _, rfl, rfl, ·⟩) (⟨_, .put11 idx ·⟩)
  | split => exact .inr ⟨_, .split⟩
  | join =>
    cases hbad : s.badSymbol with
    | none => exact .inr ⟨_, .join hbad⟩
    | some j => exact .inl ⟨_, _, (commandFaults_join_iff s _ _).2 ⟨rfl, j, hbad, rfl⟩⟩
  | shl11 => exact .inr ⟨_, .shl11⟩
  | enclen => exact .inr ⟨_, .enclen⟩
  | declen =>
    by_cases hmal : s.Malformed
    · exact .inl ⟨_, _, (commandFaults_declen_iff s _ _).2 (.inl ⟨rfl, rfl, hmal⟩)⟩
    · exact (Nat.lt_or_ge s.bmax s.declenValue).imp
        (fun hlt => ⟨_, _, (commandFaults_declen_iff s _ _).2 (.inr ⟨rfl, rfl, hmal, hlt⟩)⟩) (⟨_, .declen hmal ·⟩)

/-- What a command answers: the state with a fault of R131 latched, or the state its effect leaves. -/
theorem exec_eq_next_iff {i : Instr} {s t : State} :
    exec i s = .next t ↔
      (∃ c info, CommandFaults i s c info ∧ t = s.latch c info (encode i)) ∨ Effect s i t := by
  constructor
  · intro h
    obtain ⟨c, info, hfaults⟩ | ⟨u, hu⟩ := commandFaults_or_effect i s
    · exact .inl ⟨c, info, hfaults, Host.Outcome.next.inj (h.symm.trans (exec_of_commandFaults hfaults))⟩
    · obtain rfl : t = u := Host.Outcome.next.inj (h.symm.trans (exec_of_effect hu))
      exact .inr hu
  · rintro (⟨c, info, hfaults, rfl⟩ | heffect)
    · exact exec_of_commandFaults hfaults
    · exact exec_of_effect heffect

/-! ### The writes of PUT11 and JOIN, as data -/

/-- One turn of `put11` on the list of written cells. -/
theorem State.get?_putCell (s : State) (i : Nat) (v : Symbol) (t c : Nat) :
    (s.putCell i v t).buf.get? c =
      if c = firstCell i + t ∧ c < s.n.toNat ∧ windowCell (fieldMask i) t ≠ 0#8 then
        some (maskedByte (s.byteAt c) i v t)
      else s.buf.get? c := by
  unfold State.putCell
  dsimp only
  by_cases hwrite : firstCell i + t < s.n.toNat ∧ windowCell (fieldMask i) t ≠ 0#8
  · rw [if_pos hwrite, State.writeByte_buf, Memory.get?_set]
    by_cases hc : c = firstCell i + t
    · subst hc
      rw [if_pos rfl, if_pos ⟨rfl, hwrite⟩, maskedByte]
    · rw [if_neg hc, if_neg (fun h => hc h.1)]
  · rw [if_neg hwrite, if_neg]
    rintro ⟨rfl, h⟩
    exact hwrite h

theorem State.putCell_n (s : State) (i : Nat) (v : Symbol) (t : Nat) : (s.putCell i v t).n = s.n := by
  obtain ⟨b, hb⟩ := s.putCell_frame i v t
  rw [hb, State.withBuf_n]

theorem State.putSymbol_n (s : State) (i : Nat) (v : Symbol) : (s.putSymbol i v).n = s.n := by
  obtain ⟨b, hb⟩ := s.putSymbol_frame i v
  rw [hb, State.withBuf_n]

/-- `put11` writes below `N` only, so it keeps the canonical form. -/
theorem State.wf_putCell {s : State} {cells : Nat} (hbuf : s.buf.wf cells = true) (hn : s.n.toNat ≤ cells) (i : Nat)
    (v : Symbol) (t : Nat) : (s.putCell i v t).buf.wf cells = true := by
  unfold State.putCell
  dsimp only
  split
  case isTrue h => exact Memory.wf_set hbuf (h.1.trans_le hn) _
  case isFalse => exact hbuf

theorem State.wf_putSymbol {s : State} {cells : Nat} (hbuf : s.buf.wf cells = true) (hn : s.n.toNat ≤ cells) (i : Nat)
    (v : Symbol) : (s.putSymbol i v).buf.wf cells = true := by
  have first := State.wf_putCell hbuf hn i v 0
  have second := State.wf_putCell first (s.putCell_n i v 0 ▸ hn) i v 1
  refine State.wf_putCell second ?_ i v 2
  rwa [State.putCell_n, State.putCell_n]

theorem State.wf_putSymbols {s : State} {cells : Nat} (hbuf : s.buf.wf cells = true) (hn : s.n.toNat ≤ cells)
    (count : Nat) : (s.putSymbols count).buf.wf cells = true := by
  induction count with
  | zero => exact hbuf
  | succ count ih => exact State.wf_putSymbol ih (s.putSymbols_n count ▸ hn) _ _

theorem State.wf_zeroBuffer {s : State} {cells : Nat} (hbuf : s.buf.wf cells = true) (hn : s.n.toNat ≤ cells) :
    s.zeroBuffer.buf.wf cells = true :=
  Memory.wf_setPrefix hbuf hn _

theorem State.rejoined_frame (s : State) : ∃ b, s.rejoined = s.withBuf b := by
  obtain ⟨b, hb⟩ := s.zeroBuffer.putSymbols_frame s.k.toNat
  exact ⟨b, hb⟩

/-! ### The invariant (R29) -/

/-- Replacing `BUF` by cells in canonical form keeps the invariant. -/
theorem StateInv.withBuf {s : State} (h : StateInv s) {b : Memory 8} (hb : b.wf s.bmax = true) :
    StateInv (s.withBuf b) := by
  obtain ⟨hlegal, hn, hk, hcode, hinfo, -, hsym⟩ := h
  exact ⟨hlegal, hn, hk, hcode, hinfo, hb, hsym⟩

/-- Replacing `SYM` by cells in canonical form keeps the invariant. -/
theorem StateInv.withSym {s : State} (h : StateInv s) {v : Memory 16} (hv : v.wf s.smax = true) :
    StateInv (s.withSym v) := by
  obtain ⟨hlegal, hn, hk, hcode, hinfo, hbuf, -⟩ := h
  exact ⟨hlegal, hn, hk, hcode, hinfo, hbuf, hv⟩

theorem StateInv.withN {s : State} (h : StateInv s) {n : BitVec 13} (hn : n.toNat ≤ s.bmax) : StateInv (s.withN n) := by
  obtain ⟨hlegal, -, hk, hcode, hinfo, hbuf, hsym⟩ := h
  exact ⟨hlegal, hn, hk, hcode, hinfo, hbuf, hsym⟩

theorem StateInv.withK {s : State} (h : StateInv s) {k : BitVec 12} (hk : k.toNat ≤ s.smax) : StateInv (s.withK k) := by
  obtain ⟨hlegal, hn, -, hcode, hinfo, hbuf, hsym⟩ := h
  exact ⟨hlegal, hn, hk, hcode, hinfo, hbuf, hsym⟩

/-- A fault has a legal code, and it is no running state any more. -/
theorem StateInv.latch {s : State} (h : StateInv s) (c : Cause) (info : BitVec 16) (cmd : Word) :
    StateInv (s.latch c info cmd) := by
  obtain ⟨hlegal, hn, hk, -, -, hbuf, hsym⟩ := h
  exact ⟨hlegal, hn, hk, c.code_bounds.2, fun hrun => absurd hrun c.code_ne_zero, hbuf, hsym⟩

/-- After a reset event the lengths are 0 and no cell is written (R150). -/
theorem StateInv.takeReset {s : State} (h : StateInv s) : StateInv s.takeReset := by
  obtain ⟨hlegal, -⟩ := h
  exact ⟨hlegal, Nat.zero_le _, Nat.zero_le _, Nat.zero_le _, fun _ => ⟨rfl, rfl⟩, Memory.wf_nil _, Memory.wf_nil _⟩

/-- A number is no larger in a register than it is. -/
theorem toNat_ofNat_le_of_le {w x bound : Nat} (h : x ≤ bound) : (BitVec.ofNat w x).toNat ≤ bound :=
  (BitVec.toNat_ofNat x w ▸ Nat.mod_le _ _).trans h

/-- A command that completes keeps the invariant. -/
theorem StateInv.of_effect {s t : State} {i : Instr} (hinv : StateInv s) (h : Effect s i t) : StateInv t := by
  have ⟨hlegal, hn, hk, hcode, hinfo, hbuf, hsym⟩ := hinv
  have count_le : symbolCount s.n.toNat ≤ s.smax := symbolCount_mono hn
  cases h with
  | nop => exact hinv
  | wrb val inRange => exact hinv.withBuf (Memory.wf_set hbuf inRange _)
  | rdb inRange => exact hinv
  | wrs val inRange => exact hinv.withSym (Memory.wf_set hsym inRange _)
  | rds inRange => exact hinv
  | @setr reg val x max named writable inRange =>
    have kept {w : Nat} : (val.setWidth w).toNat ≤ max :=
      (BitVec.toNat_setWidth w val ▸ Nat.mod_le _ _).trans inRange
    cases x with
    | n => exact hinv.withN (kept.trans (Option.some.inj writable).ge)
    | k => exact hinv.withK (kept.trans (Option.some.inj writable).ge)
    | r => exact hinv
    | m => exact hinv
    | capb => exact hinv
    | caps => exact hinv
  | getr named => exact hinv
  | get11 idx => exact hinv
  | @put11 idx val isSym =>
    have hwf := State.wf_putSymbol hbuf hn idx.toNat (val.setWidth 11)
    obtain ⟨b, hb⟩ := s.putSymbol_frame idx.toNat (val.setWidth 11)
    rw [hb] at hwf ⊢
    exact hinv.withBuf hwf
  | split => exact (hinv.withSym (Memory.wf_setPrefix hsym count_le _)).withK (toNat_ofNat_le_of_le count_le)
  | join allSymbols =>
    have hwf : s.rejoined.buf.wf s.bmax = true := State.wf_putSymbols (State.wf_zeroBuffer hbuf hn) hn s.k.toNat
    obtain ⟨b, hb⟩ := s.rejoined_frame
    rw [hb] at hwf ⊢
    exact hinv.withBuf hwf
  | shl11 => exact hinv.withBuf (Memory.wf_setPrefix hbuf hn _)
  | enclen => exact hinv.withK (toNat_ofNat_le_of_le count_le)
  | declen wellFormed inRange => exact hinv.withN (toNat_ofNat_le_of_le inRange)

/-- Every command keeps the invariant. -/
theorem StateInv.exec {s t : State} {i : Instr} (hinv : StateInv s) (h : exec i s = .next t) : StateInv t := by
  obtain ⟨c, info, -, rfl⟩ | heffect := exec_eq_next_iff.1 h
  · exact hinv.latch c info _
  · exact hinv.of_effect heffect

/-- Every word presented keeps the invariant. -/
theorem StateInv.present {s t : State} {cmd : Word} (hinv : StateInv s) (h : present cmd s = .next t) : StateInv t := by
  obtain ⟨-, hp⟩ | ⟨-, -, hp⟩ | ⟨-, i, -, hp⟩ := present_cases cmd s
  · obtain rfl := Host.Outcome.next.inj (hp.symm.trans h)
    exact hinv
  · obtain rfl := Host.Outcome.next.inj (hp.symm.trans h)
    exact hinv.latch _ _ _
  · exact hinv.exec (hp.symm.trans h)

/-- Settles O14: a step is idle, a reset event or a word presented; the host's list is no part of the invariant. -/
theorem stepKeepsTheInvariant : Obligations.StepKeepsTheInvariant := by
  intro s t hinv hstep
  have hinv' (rest : List HostEvent) : StateInv (s.withHost rest) := hinv
  obtain ⟨-, hs⟩ | ⟨rest, -, hs⟩ | ⟨cmd, rest, -, hs⟩ := step_cases s
  · obtain rfl := Host.Outcome.next.inj (hs.symm.trans hstep)
    exact hinv
  · obtain rfl := Host.Outcome.next.inj (hs.symm.trans hstep)
    exact (hinv' rest).takeReset
  · exact (hinv' rest).present (hs.symm.trans hstep)

/-- Settles O13, by evaluating the model. -/
theorem resetStateMeetsTheInvariant : Obligations.ResetStateMeetsTheInvariant := by
  unfold Obligations.ResetStateMeetsTheInvariant
  decide

/-- Settles O12: no cell is listed as written, so each reads its free value. -/
theorem resetStateHasTheListedRegisters : Obligations.ResetStateHasTheListedRegisters :=
  ⟨rfl, rfl, rfl, rfl, rfl, rfl, rfl, rfl, by decide, by decide, fun _ => rfl, fun _ => rfl⟩

/-! ### The writers of registers and cells (R11, R15 to R19) -/

/-- Register `x` has one number, so SETR of it has one operand. -/
theorem eq_of_number {reg reg' : Idx} {x : OperandReg} (h : reg.toNat = x.number) (h' : reg'.toNat = x.number) :
    reg = reg' :=
  BitVec.eq_of_toNat_eq (h.trans h'.symm)

/-- Settles O20: of the effects only those of SETR, SPLIT, ENCLEN and DECLEN write an operand register. -/
theorem operandRegistersHaveListedWriters : Obligations.OperandRegistersHaveListedWriters := by
  intro i s t hexec
  obtain ⟨c, info, -, rfl⟩ | heffect := exec_eq_next_iff.1 hexec
  · exact ⟨.inl rfl, .inl rfl, .inl rfl, .inl rfl⟩
  cases heffect with
  | @setr reg val x max named =>
    cases x with
    | n => exact ⟨.inr (.inl ⟨val, by rw [eq_of_number (reg' := 0#12) named rfl]⟩), .inl rfl, .inl rfl, .inl rfl⟩
    | k => exact ⟨.inl rfl, .inr (.inl ⟨val, by rw [eq_of_number (reg' := 1#12) named rfl]⟩), .inl rfl, .inl rfl⟩
    | r => exact ⟨.inl rfl, .inl rfl, .inr (.inl ⟨val, by rw [eq_of_number (reg' := 2#12) named rfl]⟩), .inl rfl⟩
    | m => exact ⟨.inl rfl, .inl rfl, .inl rfl, .inr (.inl ⟨val, by rw [eq_of_number (reg' := 3#12) named rfl]⟩)⟩
    | capb => exact ⟨.inl rfl, .inl rfl, .inl rfl, .inl rfl⟩
    | caps => exact ⟨.inl rfl, .inl rfl, .inl rfl, .inl rfl⟩
  | @put11 idx val isSym =>
    obtain ⟨b, hb⟩ := s.putSymbol_frame idx.toNat (val.setWidth 11)
    rw [hb]
    exact ⟨.inl rfl, .inl rfl, .inl rfl, .inl rfl⟩
  | split => exact ⟨.inl rfl, .inr (.inr (.inl rfl)), .inl rfl, .inl rfl⟩
  | join allSymbols =>
    obtain ⟨b, hb⟩ := s.rejoined_frame
    rw [hb]
    exact ⟨.inl rfl, .inl rfl, .inl rfl, .inl rfl⟩
  | enclen => exact ⟨.inl rfl, .inr (.inr (.inr rfl)), .inr (.inr (.inl rfl)), .inr (.inr rfl)⟩
  | declen wellFormed inRange =>
    refine ⟨.inr (.inr rfl), .inl rfl, ?_, .inl rfl⟩
    by_cases hm : s.m = 0#1
    · exact .inr (.inr (.inr ⟨rfl, hm, if_pos hm⟩))
    · exact .inl (if_neg hm)
  | _ => exact ⟨.inl rfl, .inl rfl, .inl rfl, .inl rfl⟩

theorem State.byteAt_rejoined_of_le {s : State} {j : Nat} (h : s.n.toNat ≤ j) : s.rejoined.byteAt j = s.byteAt j := by
  rw [State.rejoined, s.zeroBuffer.byteAt_putSymbols_of_le s.k.toNat h, s.byteAt_zeroBuffer,
    if_neg (Nat.not_lt.2 h)]

/-- Settles O21: of the effects only those of WRB, PUT11, JOIN and SHL11 write `BUF`, and those of WRS and SPLIT `SYM`,
each within its reach. -/
theorem memoryCellsHaveListedWriters : Obligations.MemoryCellsHaveListedWriters := by
  intro i s t hexec
  obtain ⟨c, info, -, rfl⟩ | heffect := exec_eq_next_iff.1 hexec
  · exact ⟨fun _ => .inl rfl, fun _ => .inl rfl⟩
  cases heffect with
  | @wrb idx val inRange =>
    refine ⟨fun j => ?_, fun _ => .inl rfl⟩
    by_cases hj : j = idx.toNat
    · exact .inr (.inl ⟨idx, val, rfl, hj.symm⟩)
    · exact .inl ((s.byteAt_writeByte _ _ _).trans (if_neg hj))
  | @wrs idx val inRange =>
    refine ⟨fun _ => .inl rfl, fun j => ?_⟩
    by_cases hj : j = idx.toNat
    · exact .inr (.inl ⟨idx, val, rfl, hj.symm⟩)
    · exact .inl ((s.symAt_writeSym _ _ _).trans (if_neg hj))
  | @setr reg val x max named =>
    obtain ⟨n, k, r, m, hw⟩ := s.writeOperand_frame val x
    rw [hw]
    exact ⟨fun _ => .inl rfl, fun _ => .inl rfl⟩
  | @put11 idx val isSym =>
    refine ⟨fun j => ?_, fun j => .inl ?_⟩
    · by_cases hj : firstCell idx.toNat ≤ j ∧ j < firstCell idx.toNat + 3 ∧ j < s.n.toNat
      · obtain ⟨hlo, hhi, hlt⟩ := hj
        exact .inr (.inr ⟨hlt, .inr (.inr ⟨idx, val, rfl, hlo, Nat.le_of_lt_succ hhi⟩)⟩)
      · exact .inl ((s.byteAt_putSymbol _ _ _).trans (if_neg hj))
    · obtain ⟨b, hb⟩ := s.putSymbol_frame idx.toNat (val.setWidth 11)
      rw [hb, State.symAt_withBuf]
  | split =>
    refine ⟨fun _ => .inl rfl, fun j => ?_⟩
    by_cases hj : j < symbolCount s.n.toNat
    · exact .inr (.inr ⟨rfl, hj⟩)
    · exact .inl ((s.symAt_setPrefix _ _ _).trans (if_neg hj))
  | join allSymbols =>
    refine ⟨fun j => ?_, fun j => .inl ?_⟩
    · by_cases hj : j < s.n.toNat
      · exact .inr (.inr ⟨hj, .inl rfl⟩)
      · exact .inl (State.byteAt_rejoined_of_le (Nat.not_lt.1 hj))
    · obtain ⟨b, hb⟩ := s.rejoined_frame
      rw [hb, State.symAt_withBuf]
  | shl11 =>
    refine ⟨fun j => ?_, fun _ => .inl rfl⟩
    by_cases hj : j < s.n.toNat
    · exact .inr (.inr ⟨hj, .inr (.inl rfl)⟩)
    · exact .inl ((s.byteAt_shifted j).trans (if_neg hj))
  | _ => exact ⟨fun _ => .inl rfl, fun _ => .inl rfl⟩

end Sys2Proof.Machine
end

section
/-! The remaining statements of 60_exceptions.md and 70_reset_and_hazards.md on steps and runs: what one step does (R50,
R141, R150, R156), how a halted state is left (R138) and how a run ends (R155). -/

namespace Sys2Proof.Machine

/-! ### One step -/

/-- Settles O6: the block is running, so the port hands the word to `exec`. -/
theorem stepRunsTheDecodedCommand : Obligations.StepRunsTheDecodedCommand := by
  intro s cmd rest i hhost hrun hdecode
  have hrun' : Running (s.withHost rest) := hrun
  exact (step_of_command hhost).trans (present_of_command hrun' hdecode)

/-- Settles O7: there is no event to take. -/
theorem stepWithNothingPresentedIsIdle : Obligations.StepWithNothingPresentedIsIdle := by
  intro s hhost
  simp only [step, takeNextEvent, hhost]

/-- A step with a reset event as the host's next move takes it (R150). -/
theorem step_of_reset {s : State} {rest : List HostEvent} (hhost : s.host = .reset :: rest) :
    step s = .next (s.withHost rest).takeReset := by
  simp only [step, takeNextEvent, hhost, takeEvent]

/-- Settles O9: after a reset event no cell is listed as written, so each reads the free value of the new reset. -/
theorem resetEventClearsRegisters : Obligations.ResetEventClearsRegisters := fun _ _ hhost =>
  ⟨_, step_of_reset hhost, rfl, rfl, rfl, rfl, rfl, rfl, rfl, rfl, rfl, rfl, rfl, fun _ => rfl, fun _ => rfl⟩

/-- Settles O11: with no event, or a word, a halted block stays as it is. -/
theorem onlyResetLeavesTheHaltedState : Obligations.OnlyResetLeavesTheHaltedState := by
  intro s t hhalted hstep hrun
  obtain ⟨-, hs⟩ | ⟨rest, hhost, -⟩ | ⟨cmd, rest, -, hs⟩ := step_cases s
  · obtain rfl := Host.Outcome.next.inj (hs.symm.trans hstep)
    exact absurd hrun hhalted
  · exact ⟨rest, hhost⟩
  · have ignored : present cmd (s.withHost rest) = .next (s.withHost rest) := if_pos hhalted
    obtain rfl := Host.Outcome.next.inj (ignored.symm.trans (hs.symm.trans hstep))
    exact absurd hrun hhalted

/-- A word presented ends in a next state of the same capacity, whether the block runs or not. -/
theorem present_next_cfg (cmd : Word) (s : State) : ∃ t, present cmd s = .next t ∧ t.cfg = s.cfg := by
  by_cases hrun : Running s
  · obtain ⟨t, ht, ⟨c, info, rfl⟩ | hdone⟩ := present_next hrun cmd
    · exact ⟨_, ht, rfl⟩
    · exact ⟨t, ht, hdone.cfg⟩
  · exact ⟨s, if_pos hrun, rfl⟩

/-- A step ends in a next state of the same capacity. -/
theorem step_next (s : State) : ∃ t, step s = .next t ∧ t.cfg = s.cfg := by
  obtain ⟨-, hs⟩ | ⟨rest, -, hs⟩ | ⟨cmd, rest, -, hs⟩ := step_cases s
  · exact ⟨s, hs, rfl⟩
  · exact ⟨_, hs, rfl⟩
  · obtain ⟨t, ht, hcfg⟩ := present_next_cfg cmd (s.withHost rest)
    exact ⟨t, hs.trans ht, hcfg⟩

/-- Settles O15: an idle step, a reset event and a word presented each end in a next state. -/
theorem everyStepAnswersANextState : Obligations.EveryStepAnswersANextState := fun s =>
  (step_next s).imp fun _ h => h.1

/-- Settles O16: `BMAX` and `SMAX` are read off the capacity, which every step keeps. -/
theorem noStepChangesTheParameters : Obligations.NoStepChangesTheParameters := by
  intro s t hstep
  obtain ⟨u, hu, hcfg⟩ := step_next s
  obtain rfl := Host.Outcome.next.inj (hu.symm.trans hstep)
  exact ⟨hcfg, congrArg Config.bmax hcfg, congrArg (fun c : Config => symbolCount c.bmax) hcfg⟩

/-! ### What a command reads -/

/-- The `BUF` cells that a command reads in a state. -/
def State.ReadsByte (s : State) (i : Instr) (j : Nat) : Prop :=
  match i with
  | .rdb idx => j = idx.toNat
  | .get11 idx | .put11 idx _ => firstCell idx.toNat ≤ j ∧ j ≤ firstCell idx.toNat + 2 ∧ j < s.n.toNat
  | .split | .shl11 => j < s.n.toNat
  | _ => False

/-- The `SYM` cells that a command reads in a state. -/
def State.ReadsSym (s : State) (i : Instr) (j : Nat) : Prop :=
  match i with
  | .rds idx => j = idx.toNat
  | .join => j < s.k.toNat
  | _ => False

theorem State.padded_congr {s s' : State} {j : Nat} (hn : s.n = s'.n)
    (hcell : j < s.n.toNat → s.byteAt j = s'.byteAt j) : s.padded j = s'.padded j := by
  unfold State.padded
  rw [← hn]
  split
  case isTrue hlt => exact hcell hlt
  case isFalse => rfl

/-- A symbol is a function of `N` and the cells of its window that lie below `N` (R27). -/
theorem State.symbol_congr {s s' : State} {i : Nat} (hn : s.n = s'.n)
    (hcells : ∀ j, firstCell i ≤ j → j ≤ firstCell i + 2 → j < s.n.toNat → s.byteAt j = s'.byteAt j) :
    s.symbol i = s'.symbol i := by
  have cell_eq (t : Nat) (ht : t ≤ 2) : s.padded (firstCell i + t) = s'.padded (firstCell i + t) :=
    State.padded_congr hn (hcells _ (Nat.le_add_right _ _) (Nat.add_le_add_left ht _))
  have window_eq : s.window i = s'.window i := by
    unfold State.window
    rw [cell_eq 1 (by decide), cell_eq 2 (by decide)]
    congr 2
    exact cell_eq 0 (by decide)
  rw [State.symbol, window_eq, State.symbol]

/-- JOIN's check is a function of `K` and the cells below `K` (R27). -/
theorem State.badSymbol_congr {s s' : State} (hk : s.k = s'.k)
    (hcells : ∀ i, i < s.k.toNat → s.symAt i = s'.symAt i) : s.badSymbol = s'.badSymbol := by
  unfold State.badSymbol
  rw [← hk]
  exact List.find?_congr fun i hi => by rw [hcells i (List.mem_range.1 hi)]

/-! ### The free values and the host's list enter a command only by the cells it reads -/

/-- The model's own two moving fields replaced: the counter that picks the free values, and what the host does next. -/
def State.withContext (s : State) (resets : Nat) (host : List HostEvent) : State :=
  { s with resets := resets, host := host }

section

variable {s : State} {resets : Nat} {host : List HostEvent}

theorem State.withContext_operandMax? (x : OperandReg) :
    (s.withContext resets host).operandMax? x = s.operandMax? x := by
  cases x <;> rfl

theorem State.withContext_operandValue (x : OperandReg) :
    (s.withContext resets host).operandValue x = s.operandValue x := by
  cases x <;> rfl

theorem State.withContext_writeOperand (val : Cell16) (x : OperandReg) :
    (s.withContext resets host).writeOperand val x = (s.writeOperand val x).withContext resets host := by
  cases x <;> rfl

theorem State.withContext_putCell {i : Nat} {t : Nat} (v : Symbol)
    (hcell : firstCell i + t < s.n.toNat →
      (s.withContext resets host).byteAt (firstCell i + t) = s.byteAt (firstCell i + t)) :
    (s.withContext resets host).putCell i v t = (s.putCell i v t).withContext resets host := by
  unfold State.putCell
  dsimp only
  by_cases hwrite : firstCell i + t < s.n.toNat ∧ windowCell (fieldMask i) t ≠ 0#8
  · rw [if_pos hwrite, hcell hwrite.1]
    exact if_pos hwrite
  · rw [if_neg hwrite]
    exact if_neg hwrite

/-- A turn of `put11` that reads the same cell value leaves the same cell values. -/
theorem State.byteAt_withContext_putCell {i t c : Nat} (v : Symbol) (ht : t < 3)
    (hown : firstCell i + t < s.n.toNat →
      (s.withContext resets host).byteAt (firstCell i + t) = s.byteAt (firstCell i + t))
    (hcell : (s.withContext resets host).byteAt c = s.byteAt c) :
    ((s.putCell i v t).withContext resets host).byteAt c = (s.putCell i v t).byteAt c := by
  rw [← State.withContext_putCell v hown, State.byteAt_putCell _ _ _ _ _ ht, State.byteAt_putCell _ _ _ _ _ ht, hcell]
  rfl

/-- `put11` depends on the free values only by the cells of its window below `N`. -/
theorem State.withContext_putSymbol {i : Nat} (v : Symbol)
    (hcells : ∀ j, firstCell i ≤ j → j ≤ firstCell i + 2 → j < s.n.toNat →
      (s.withContext resets host).byteAt j = s.byteAt j) :
    (s.withContext resets host).putSymbol i v = (s.putSymbol i v).withContext resets host ∧
      ∀ c, (s.withContext resets host).byteAt c = s.byteAt c →
        ((s.putSymbol i v).withContext resets host).byteAt c = (s.putSymbol i v).byteAt c := by
  have own (t : Nat) (ht : t ≤ 2) (h : firstCell i + t < s.n.toNat) :
      (s.withContext resets host).byteAt (firstCell i + t) = s.byteAt (firstCell i + t) :=
    hcells _ (Nat.le_add_right _ _) (Nat.add_le_add_left ht _) h
  have own0 := own 0 (by decide)
  have own1 (h : firstCell i + 1 < (s.putCell i v 0).n.toNat) :=
    State.byteAt_withContext_putCell v (by decide) own0 (own 1 (by decide) (s.putCell_n i v 0 ▸ h))
  have own2 (h : firstCell i + 2 < ((s.putCell i v 0).putCell i v 1).n.toNat) :=
    State.byteAt_withContext_putCell v (by decide) own1 <|
      State.byteAt_withContext_putCell v (by decide) own0
        (own 2 (by decide) (by rwa [State.putCell_n, State.putCell_n] at h))
  constructor
  · rw [State.putSymbol, State.withContext_putCell v own0, State.withContext_putCell v own1,
      State.withContext_putCell v own2, State.putSymbol]
  · intro c hc
    exact State.byteAt_withContext_putCell v (by decide) own2 <|
      State.byteAt_withContext_putCell v (by decide) own1 <|
        State.byteAt_withContext_putCell v (by decide) own0 hc

/-- The writes of JOIN into a buffer whose cells below `N` are written depend on the free values only by the symbols. -/
theorem State.withContext_putSymbols {count : Nat}
    (hbytes : ∀ j, j < s.n.toNat → (s.withContext resets host).byteAt j = s.byteAt j)
    (hsyms : ∀ i, i < count → (s.withContext resets host).symAt i = s.symAt i) :
    (s.withContext resets host).putSymbols count = (s.putSymbols count).withContext resets host ∧
      ∀ j, j < s.n.toNat → ((s.putSymbols count).withContext resets host).byteAt j = (s.putSymbols count).byteAt j := by
  induction count with
  | zero => exact ⟨rfl, hbytes⟩
  | succ count ih =>
    obtain ⟨put_eq, cells_eq⟩ := ih fun i hi => hsyms i (Nat.lt_succ_of_lt hi)
    have next := State.withContext_putSymbol (s := s.putSymbols count) (i := count)
      ((s.symAt count).setWidth 11) fun j _ _ hj => cells_eq j (s.putSymbols_n count ▸ hj)
    constructor
    · rw [State.putSymbols, put_eq, hsyms count (Nat.lt_succ_self _), next.1, State.putSymbols]
    · intro j hj
      exact next.2 j (cells_eq j hj)

theorem State.badSymbol_withContext (hsyms : ∀ i, i < s.k.toNat → (s.withContext resets host).symAt i = s.symAt i) :
    (s.withContext resets host).badSymbol = s.badSymbol :=
  State.badSymbol_congr (s := s.withContext resets host) (s' := s) rfl hsyms

theorem State.withContext_rejoined (hsyms : ∀ i, i < s.k.toNat → (s.withContext resets host).symAt i = s.symAt i) :
    (s.withContext resets host).rejoined = s.rejoined.withContext resets host := by
  refine (State.withContext_putSymbols (s := s.zeroBuffer) (fun j hj => ?_) hsyms).1
  have zeroed : ((s.withContext resets host).zeroBuffer).byteAt j = 0#8 :=
    (State.byteAt_zeroBuffer _ _).trans (if_pos hj)
  exact zeroed.trans ((s.byteAt_zeroBuffer j).trans (if_pos hj)).symm

/-- An effect does not depend on what the cells that the command does not read would hold if unwritten, nor on what the
host does next. -/
theorem Effect.withContext {t : State} {i : Instr} (h : Effect s i t)
    (hbytes : ∀ j, s.ReadsByte i j → (s.withContext resets host).byteAt j = s.byteAt j)
    (hsyms : ∀ j, s.ReadsSym i j → (s.withContext resets host).symAt j = s.symAt j) :
    Effect (s.withContext resets host) i (t.withContext resets host) := by
  have same_symbols (hcells : ∀ j, j < s.n.toNat → (s.withContext resets host).byteAt j = s.byteAt j) (i : Nat) :
      (s.withContext resets host).symbol i = s.symbol i :=
    State.symbol_congr rfl fun j _ _ hj => hcells j hj
  have same_padded (hcells : ∀ j, j < s.n.toNat → (s.withContext resets host).byteAt j = s.byteAt j) (j : Nat) :
      (s.withContext resets host).padded j = s.padded j :=
    State.padded_congr rfl (hcells j)
  cases h with
  | nop => exact .nop
  | wrb val inRange => exact .wrb val inRange
  | @rdb idx inRange =>
    have := Effect.rdb (s := s.withContext resets host) (idx := idx) inRange
    rw [hbytes _ rfl] at this
    exact this
  | wrs val inRange => exact .wrs val inRange
  | @rds idx inRange =>
    have := Effect.rds (s := s.withContext resets host) (idx := idx) inRange
    rw [hsyms _ rfl] at this
    exact this
  | @setr reg val x max named writable inRange =>
    rw [← State.withContext_writeOperand]
    exact .setr named ((State.withContext_operandMax? x).trans writable) inRange
  | @getr reg x named =>
    have := Effect.getr (s := s.withContext resets host) named
    rw [State.withContext_operandValue] at this
    exact this
  | get11 idx =>
    have := Effect.get11 (s := s.withContext resets host) idx
    have symbol_eq : (s.withContext resets host).symbol idx.toNat = s.symbol idx.toNat :=
      State.symbol_congr rfl fun j hlo hhi hlt => hbytes j ⟨hlo, hhi, hlt⟩
    rw [symbol_eq] at this
    exact this
  | @put11 idx val isSym =>
    rw [← (State.withContext_putSymbol _ fun j hlo hhi hlt => hbytes j ⟨hlo, hhi, hlt⟩).1]
    exact .put11 idx isSym
  | split =>
    have := Effect.split (s := s.withContext resets host)
    rw [State.regrouped, funext fun i => congrArg (BitVec.setWidth 16) (same_symbols hbytes i)] at this
    exact this
  | join allSymbols =>
    rw [← State.withContext_rejoined hsyms]
    exact .join ((State.badSymbol_withContext hsyms).trans allSymbols)
  | shl11 =>
    have := Effect.shl11 (s := s.withContext resets host)
    simp only [State.shifted, same_padded hbytes] at this
    exact this
  | enclen => exact .enclen
  | declen wellFormed inRange => exact .declen wellFormed inRange

/-- Nor does a fault: only JOIN's check reads a memory. -/
theorem commandFaults_withContext {i : Instr} {c : Cause} {info : BitVec 16} (h : CommandFaults i s c info)
    (hsyms : ∀ j, s.ReadsSym i j → (s.withContext resets host).symAt j = s.symAt j) :
    CommandFaults i (s.withContext resets host) c info := by
  cases i with
  | join =>
    obtain ⟨rfl, j, hj, rfl⟩ := (commandFaults_join_iff s c info).1 h
    exact (commandFaults_join_iff _ _ _).2 ⟨rfl, j, (State.badSymbol_withContext hsyms).trans hj, rfl⟩
  | _ => exact h

theorem exec_withContext {t : State} {i : Instr} (h : exec i s = .next t)
    (hbytes : ∀ j, s.ReadsByte i j → (s.withContext resets host).byteAt j = s.byteAt j)
    (hsyms : ∀ j, s.ReadsSym i j → (s.withContext resets host).symAt j = s.symAt j) :
    exec i (s.withContext resets host) = .next (t.withContext resets host) := by
  obtain ⟨c, info, hfaults, rfl⟩ | heffect := exec_eq_next_iff.1 h
  · exact exec_of_commandFaults (commandFaults_withContext hfaults hsyms)
  · exact exec_of_effect (heffect.withContext hbytes hsyms)

end

/-! ### Written inputs (R152, R153) -/

theorem State.byteAt_withContext_of_written {s : State} {j : Nat} (h : (s.buf.get? j).isSome = true) (resets : Nat)
    (host : List HostEvent) : (s.withContext resets host).byteAt j = s.byteAt j := by
  obtain ⟨v, hv⟩ := Option.isSome_iff_exists.1 h
  simp only [State.byteAt, State.withContext, hv, Option.getD_some]

theorem State.symAt_withContext_of_written {s : State} {j : Nat} (h : (s.sym.get? j).isSome = true) (resets : Nat)
    (host : List HostEvent) : (s.withContext resets host).symAt j = s.symAt j := by
  obtain ⟨v, hv⟩ := Option.isSome_iff_exists.1 h
  simp only [State.symAt, State.withContext, hv, Option.getD_some]

theorem State.bytesWritten_iff (s : State) (n : Nat) :
    s.bytesWritten n = true ↔ ∀ j, j < n → (s.buf.get? j).isSome = true := by
  simp [State.bytesWritten]

theorem State.symbolsWritten_iff (s : State) (k : Nat) :
    s.symbolsWritten k = true ↔ ∀ i, i < k → (s.sym.get? i).isSome = true := by
  simp [State.symbolsWritten]

theorem State.written_of_fieldWritten {s : State} {i j : Nat} (h : s.fieldWritten i = true) (hlo : firstCell i ≤ j)
    (hhi : j ≤ firstCell i + 2) (hlt : j < s.n.toNat) : (s.buf.get? j).isSome = true := by
  simp only [State.fieldWritten, List.all_eq_true, List.mem_range, Bool.or_eq_true, decide_eq_true_eq] at h
  have := h (j - firstCell i) (by omega)
  rw [Nat.add_sub_cancel' hlo] at this
  exact this.resolve_left (Nat.not_le.2 hlt)

/-- H1 speaks of every `BUF` cell the command reads. -/
theorem written_of_readsByte {i : Instr} {s : State} (h : InputsWritten i s = true) {j : Nat}
    (hreads : s.ReadsByte i j) : (s.buf.get? j).isSome = true := by
  cases i with
  | rdb idx => exact (show j = idx.toNat from hreads) ▸ h
  | get11 idx => exact State.written_of_fieldWritten h hreads.1 hreads.2.1 hreads.2.2
  | put11 idx val => exact State.written_of_fieldWritten h hreads.1 hreads.2.1 hreads.2.2
  | split => exact (s.bytesWritten_iff _).1 h j hreads
  | shl11 => exact (s.bytesWritten_iff _).1 h j hreads
  | _ => exact hreads.elim

/-- H1 speaks of every `SYM` cell the command reads. -/
theorem written_of_readsSym {i : Instr} {s : State} (h : InputsWritten i s = true) {j : Nat}
    (hreads : s.ReadsSym i j) : (s.sym.get? j).isSome = true := by
  cases i with
  | rds idx => exact (show j = idx.toNat from hreads) ▸ h
  | join => exact (s.symbolsWritten_iff _).1 h j hreads
  | _ => exact hreads.elim

/-- A command keeps the reset counter and what the host does next. -/
theorem exec_keeps_context {i : Instr} {s t : State} (h : exec i s = .next t) :
    t.resets = s.resets ∧ t.host = s.host := by
  obtain ⟨u, hu, hcases⟩ := exec_next i s
  obtain rfl := Host.Outcome.next.inj (hu.symm.trans h)
  obtain ⟨c, info, rfl⟩ | hdone := hcases
  · exact ⟨rfl, rfl⟩
  · exact ⟨hdone.resets, hdone.host⟩

/-- Settles O55: a written cell reads the same under every reset counter. -/
theorem writtenInputsMakeResultsDefinite : Obligations.WrittenInputsMakeResultsDefinite := by
  intro i s t r hwritten hexec
  obtain ⟨-, hhost⟩ := exec_keeps_context hexec
  have left_eq : { t with resets := r } = t.withContext r s.host := by rw [← hhost]; rfl
  exact left_eq ▸ exec_withContext (host := s.host) hexec
    (fun j hj => State.byteAt_withContext_of_written (written_of_readsByte hwritten hj) _ _)
    (fun j hj => State.symAt_withContext_of_written (written_of_readsSym hwritten hj) _ _)

/-! ### Runs (R155) -/

/-- What the host does next does not enter a command. -/
theorem exec_withHost {i : Instr} {s t : State} (h : exec i s = .next t) (host : List HostEvent) :
    exec i (s.withHost host) = .next (t.withHost host) := by
  obtain ⟨hresets, -⟩ := exec_keeps_context h
  have left_eq : t.withHost host = t.withContext s.resets host := by rw [← hresets]; rfl
  exact left_eq ▸ exec_withContext (resets := s.resets) h (fun _ _ => rfl) (fun _ _ => rfl)

/-- Nor what the port does with a word. -/
theorem present_withHost {cmd : Word} {s t : State} (h : present cmd s = .next t) (host : List HostEvent) :
    present cmd (s.withHost host) = .next (t.withHost host) := by
  obtain ⟨hhalted, hs⟩ | ⟨hrun, ⟨why, hd⟩, hs⟩ | ⟨hrun, i, hd, hs⟩ := present_cases cmd s
  · obtain rfl := Host.Outcome.next.inj (hs.symm.trans h)
    exact if_pos hhalted
  · obtain rfl := Host.Outcome.next.inj (hs.symm.trans h)
    exact present_of_illegal (s := s.withHost host) hrun hd
  · exact (present_of_command (s := s.withHost host) hrun hd).trans (exec_withHost (hs.symm.trans h) host)

/-- Presenting a word and then others is presenting the others to the state that the word leaves. -/
theorem presentAll_cons_of_present {cmd : Word} {s t : State} (h : present cmd s = .next t) (cmds : List Word) :
    presentAll s (cmd :: cmds) = presentAll t cmds := by
  have hstep : step (s.given (cmd :: cmds)) = .next (t.given cmds) :=
    (step_of_command rfl).trans (present_withHost h (cmds.map HostEvent.command))
  rw [presentAll, List.length_cons, steps, hstep]
  rfl

/-- Settles O10, by induction on the words: the first one latches a fault and the block ignores the rest, or it leaves
the block running and the run goes wrong later. -/
theorem wrongRunsEndAtTheirFaultingWord : Obligations.WrongRunsEndAtTheirFaultingWord := by
  intro s t cmds hrun hrunAll hhalted
  induction cmds generalizing s with
  | nil =>
    obtain rfl : s.given [] = t := Host.Outcome.next.inj hrunAll
    exact absurd hrun hhalted
  | cons cmd cmds ih =>
    obtain ⟨u, hu, hcases⟩ := present_next hrun cmd
    rw [presentAll_cons_of_present hu] at hrunAll
    obtain ⟨c, info, rfl⟩ | hdone := hcases
    · have ignored := haltedBlockIgnoresEveryWord (s.latch c info cmd) cmds c.code_ne_zero
      obtain rfl := Host.Outcome.next.inj (ignored.symm.trans hrunAll)
      exact ⟨[], cmds, s.given [], rfl, rfl, hrun, rfl⟩
    · obtain ⟨before, rest, w, hsplit, hw, hwrun, hframe⟩ := ih u (hdone.fault.trans hrun) hrunAll
      exact ⟨cmd :: before, rest, w, congrArg _ hsplit, (presentAll_cons_of_present hu before).trans hw, hwrun, hframe⟩

end Sys2Proof.Machine
end

section
/-! The remaining statements of 20_memory.md, 40_host_access.md and 30_encoding.md on the host's accesses: RDS (R74),
reads after writes (R42), and the loads (R61, R152). -/

namespace Sys2Proof

theorem encode_rds (idx : Idx) : encode (.rds idx) = 0x40000000#32 ||| (idx.setWidth 32 <<< 16) :=
  assemble_zero_val_eq_or 4#4 idx

end Sys2Proof

namespace Sys2Proof.Machine

/-- Settles O26: the capacity check is the whole case split. -/
theorem rdsReadsOneCell : Obligations.RdsReadsOneCell := by
  intro s idx
  have hword := encode_rds idx
  exact ⟨hword ▸ decode_encode rfl, fun hge => (if_pos hge).trans (raise_eq_of_encode hword _ _ s),
    fun hlt => exec_of_effect (.rds hlt)⟩

/-! ### Reads after writes (R42) -/

/-- A value that fits a narrower field comes back from it unchanged. -/
theorem setWidth_setWidth_of_lt {w : Nat} {val : Cell16} (h : val.toNat < 2 ^ w) (hw : w ≤ 16) :
    (val.setWidth w).setWidth 16 = val :=
  BitVec.eq_of_toNat_eq (by rw [BitVec.toNat_setWidth_of_le hw, toNat_setWidth_of_lt h])

/-- A register takes every value up to its bound, at a legal capacity. -/
theorem State.operandValue_writeOperand {s : State} {val : Cell16} {x : OperandReg} {max : Nat} (hlegal : s.cfg.Legal)
    (writable : s.operandMax? x = some max) (inRange : val.toNat ≤ max) :
    (s.writeOperand val x).operandValue x = val := by
  have bmax_lt : s.bmax < 2 ^ 13 := Nat.lt_of_le_of_lt hlegal.2 (by decide)
  cases x with
  | n => exact setWidth_setWidth_of_lt ((inRange.trans (Option.some.inj writable).ge).trans_lt bmax_lt) (by decide)
  | k =>
    exact setWidth_setWidth_of_lt
      ((inRange.trans (Option.some.inj writable).ge).trans_lt (State.smax_lt_of_legal hlegal)) (by decide)
  | r => exact setWidth_setWidth_of_lt (Nat.lt_succ_of_le (inRange.trans (Option.some.inj writable).ge)) (by decide)
  | m => exact setWidth_setWidth_of_lt (Nat.lt_succ_of_le (inRange.trans (Option.some.inj writable).ge)) (by decide)
  | capb => cases writable
  | caps => cases writable

theorem State.operandValue_writeOperand_of_ne {x x' : OperandReg} (s : State) (val : Cell16) (hne : x' ≠ x) :
    (s.writeOperand val x).operandValue x' = s.operandValue x' := by
  cases x with
  | n => cases x' with
    | n => exact absurd rfl hne
    | _ => rfl
  | k => cases x' with
    | k => exact absurd rfl hne
    | _ => rfl
  | r => cases x' with
    | r => exact absurd rfl hne
    | _ => rfl
  | m => cases x' with
    | m => exact absurd rfl hne
    | _ => rfl
  | capb => rfl
  | caps => rfl

/-- A command that leaves the block running did not fault (R135). -/
theorem effect_of_exec_of_running {i : Instr} {s t : State} (h : exec i s = .next t) (hrun : Running t) :
    Effect s i t := by
  obtain ⟨c, info, -, rfl⟩ | heffect := exec_eq_next_iff.1 h
  · exact absurd hrun c.code_ne_zero
  · exact heffect

/-- Settles O29: each read command delivers what the memory, or the register, holds after the write. -/
theorem readsReturnTheLatestWrite : Obligations.ReadsReturnTheLatestWrite := by
  refine ⟨fun s idx j b hidx hj => ?_, fun s idx j val hidx hj => ?_, fun s t reg val hlegal _ hexec hrun => ?_⟩
  · have byte_eq : (b.setWidth 16).setWidth 8 = b := by
      rw [BitVec.setWidth_setWidth_of_le b (by decide), BitVec.setWidth_eq]
    refine ⟨_, _, exec_of_effect (.wrb _ hidx), exec_of_effect (.rdb hj), ?_⟩
    rw [State.withOut_out, State.byteAt_writeByte, byte_eq, apply_ite (BitVec.setWidth 16)]
    exact if_congr BitVec.toNat_inj rfl rfl
  · refine ⟨_, _, exec_of_effect (.wrs val hidx), exec_of_effect (.rds hj), ?_⟩
    rw [State.withOut_out, State.symAt_writeSym]
    exact if_congr BitVec.toNat_inj rfl rfl
  · cases effect_of_exec_of_running hexec hrun with
    | @setr _ _ x max named writable inRange =>
      have value_eq := State.operandValue_writeOperand hlegal writable inRange
      refine ⟨(exec_getr _ named).trans (by rw [value_eq]; rfl), fun reg' x' hx' hne => ?_⟩
      have named' := operandReg?_eq_some_iff.1 hx'
      have other : x' ≠ x := by
        rintro rfl
        exact hne (eq_of_number named' named)
      exact (exec_getr _ named').trans (by rw [s.operandValue_writeOperand_of_ne val other]; rfl)

/-! ### The loads (R61, R152) -/

/-- A running block that is presented the word of a command whose effect is defined takes that effect. -/
theorem present_encode {i : Instr} {s t : State} (hrun : Running s) (hwf : i.WellFormed = true) (h : Effect s i t) :
    present (encode i) s = .next t :=
  (present_of_command hrun (decode_encode hwf)).trans (exec_of_effect h)

/-- What the writes of a load keep of the state `s₀` that they start from. -/
structure LoadKeeps (s₀ s : State) : Prop where
  fault : s.fault = s₀.fault
  cfg : s.cfg = s₀.cfg
  n : s.n = s₀.n
  k : s.k = s₀.k

/-- Writing values one by one from cell `j` on, by commands that write one cell of the memory each, leaves the values in
their cells and every other cell as before. -/
theorem presentAll_writes {α : Type} {s₀ : State} {cells : Nat} {command : α × Nat → Instr} {read : State → Nat → α}
    (hhost : ∀ s host, read (State.withHost s host) = read s)
    (hwrite : ∀ s v j, LoadKeeps s₀ s → j < cells → ∃ t, present (encode (command (v, j))) s = .next t ∧
      LoadKeeps s₀ t ∧ ∀ c, read t c = if c = j then v else read s c)
    (vs : List α) {s : State} {j : Nat} (hs : LoadKeeps s₀ s) (hfits : j + vs.length ≤ cells) :
    ∃ t, presentAll s (((vs.zipIdx j).map command).map encode) = .next t ∧ LoadKeeps s₀ t ∧
      ∀ c, read t c = if j ≤ c then (vs[c - j]?).getD (read s c) else read s c := by
  induction vs generalizing s j with
  | nil => exact ⟨s.given [], rfl, ⟨hs.fault, hs.cfg, hs.n, hs.k⟩, fun c => by rw [State.given, hhost]; simp⟩
  | cons v vs ih =>
    rw [List.length_cons] at hfits
    obtain ⟨u, hu, hkeeps, hread⟩ := hwrite s v j hs (by omega)
    obtain ⟨t, ht, hkeeps', hread'⟩ := ih hkeeps (by omega : j + 1 + vs.length ≤ cells)
    refine ⟨t, (presentAll_cons_of_present hu _).trans ht, hkeeps', fun c => ?_⟩
    rw [hread', hread]
    obtain hlt | rfl | hgt := Nat.lt_trichotomy c j
    · rw [if_neg (by omega), if_neg (by omega), if_neg (by omega)]
    · rw [if_neg (by omega), if_pos rfl, if_pos (Nat.le_refl c), Nat.sub_self]
      rfl
    · rw [if_pos (by omega), if_neg (by omega), if_pos (by omega), show c - j = c - (j + 1) + 1 by omega,
        List.getElem?_cons_succ]

theorem presentAll_writeBytes {s : State} (hrun : Running s) (hlegal : s.cfg.Legal) (bytes : List Byte)
    (hfits : bytes.length ≤ s.bmax) :
    ∃ t, presentAll s ((writeBytes 0 bytes).map encode) = .next t ∧ LoadKeeps s t ∧
      ∀ c, t.byteAt c = (bytes[c]?).getD (s.byteAt c) := by
  rw [writeBytes_eq_map_zipIdx]
  refine presentAll_writes (s₀ := s) (read := State.byteAt) (fun _ _ => rfl) (fun u b j hu hj => ?_) bytes
    ⟨rfl, rfl, rfl, rfl⟩ ((Nat.zero_add _).trans_le hfits)
  have index_eq : (BitVec.ofNat 12 j).toNat = j := toNat_ofNat_of_lt (hj.trans_le hlegal.2)
  have byte_eq : (b.setWidth 16).setWidth 8 = b := by
    rw [BitVec.setWidth_setWidth_of_le b (by decide), BitVec.setWidth_eq]
  have inRange : (BitVec.ofNat 12 j).toNat < u.bmax := by
    rw [index_eq, State.bmax, hu.cfg]
    exact hj
  refine ⟨_, present_encode (hu.fault.trans hrun) (wellFormed_wrb_byte _ b) (.wrb _ inRange),
    ⟨hu.fault, hu.cfg, hu.n, hu.k⟩, fun c => ?_⟩
  rw [State.byteAt_writeByte, index_eq, byte_eq]

theorem presentAll_writeCells {s : State} (hrun : Running s) (hlegal : s.cfg.Legal) (cells : List Cell16)
    (hfits : cells.length ≤ s.smax) :
    ∃ t, presentAll s ((writeCells 0 cells).map encode) = .next t ∧ LoadKeeps s t ∧
      ∀ c, t.symAt c = (cells[c]?).getD (s.symAt c) := by
  rw [writeCells_eq_map_zipIdx]
  refine presentAll_writes (s₀ := s) (read := State.symAt) (fun _ _ => rfl) (fun u v j hu hj => ?_) cells
    ⟨rfl, rfl, rfl, rfl⟩ ((Nat.zero_add _).trans_le hfits)
  have index_eq : (BitVec.ofNat 12 j).toNat = j := toNat_ofNat_of_lt (hj.trans (State.smax_lt_of_legal hlegal))
  have inRange : (BitVec.ofNat 12 j).toNat < u.smax := by
    rw [index_eq, State.smax, State.bmax, hu.cfg]
    exact hj
  refine ⟨_, present_encode (hu.fault.trans hrun) rfl (.wrs v inRange), ⟨hu.fault, hu.cfg, hu.n, hu.k⟩, fun c => ?_⟩
  rw [State.symAt_writeSym, index_eq]

/-- A count that fits a register of at most 16 bits passes through SETR's operand exactly. -/
theorem toNat_setWidth_ofNat_of_lt {w x : Nat} (h : x < 2 ^ w) (hw : w ≤ 16) :
    ((BitVec.ofNat 16 x).setWidth w).toNat = x := by
  have count_eq : (BitVec.ofNat 16 x).toNat = x :=
    toNat_ofNat_of_lt (h.trans_le (Nat.pow_le_pow_right (by decide) hw))
  rw [toNat_setWidth_of_lt (count_eq.symm ▸ h), count_eq]

/-- Settles O57: SETR hands over the count, and the writes hand over the operands one by one. -/
theorem loadsHandOverTheirOperands : Obligations.LoadsHandOverTheirOperands := by
  refine ⟨fun s bytes hrun hlegal hfits => ?_, fun s cells hrun hlegal hfits => ?_⟩
  · have length_lt : bytes.length < 2 ^ 13 := (hfits.trans hlegal.2).trans_lt (by decide)
    have count_eq := toNat_setWidth_ofNat_of_lt length_lt (by decide)
    have inRange : (BitVec.ofNat 16 bytes.length).toNat ≤ s.bmax := toNat_ofNat_le_of_le hfits
    have counted := present_encode hrun rfl (.setr (reg := 0#12) (x := .n) rfl rfl inRange)
    obtain ⟨t, ht, hkeeps, hbytes⟩ :=
      presentAll_writeBytes (s := s.writeOperand (BitVec.ofNat 16 bytes.length) .n) hrun hlegal bytes hfits
    exact ⟨t, (presentAll_cons_of_present counted _).trans ht, hkeeps.fault.trans hrun, hkeeps.n ▸ count_eq, hbytes⟩
  · have length_lt : cells.length < 2 ^ 12 := hfits.trans_lt (State.smax_lt_of_legal hlegal)
    have count_eq := toNat_setWidth_ofNat_of_lt length_lt (by decide)
    have inRange : (BitVec.ofNat 16 cells.length).toNat ≤ s.smax := toNat_ofNat_le_of_le hfits
    have counted := present_encode hrun rfl (.setr (reg := 1#12) (x := .k) rfl rfl inRange)
    obtain ⟨t, ht, hkeeps, hcells⟩ :=
      presentAll_writeCells (s := s.writeOperand (BitVec.ofNat 16 cells.length) .k) hrun hlegal cells hfits
    exact ⟨t, (presentAll_cons_of_present counted _).trans ht, hkeeps.fault.trans hrun, hkeeps.k ▸ count_eq, hcells⟩

end Sys2Proof.Machine
end

section
/-! The remaining statements of 41_bitgrouper.md on PUT11 (R39, R82, R83) and on JOIN and SPLIT as each other's inverse
(R89), and those of 42_padding.md and 43_codec_context.md that rest on them (R104, R118). -/

namespace Sys2Proof.Machine

/-! ### PUT11 -/

/-- Settles O45: the field of each bit_shift is one constant. -/
theorem fieldMasksAreTheListedOnes : Obligations.FieldMasksAreTheListedOnes := by
  intro i
  have mask_eq {shift : Nat} (h : bitShift i = shift) : fieldMask i = 0x7FF#24 <<< (13 - shift) := by
    rw [fieldMask, h]
  refine ⟨fun h => ?_, fun h => ?_, fun h => ?_, fun h => ?_, fun h => ?_, fun h => ?_, fun h => ?_, fun h => ?_⟩
  all_goals
    rw [mask_eq h]
    decide

/-- The cells below `N` are what the stream says (R30). -/
theorem State.byteAt_eq_of_streamBit {s s' : State} (hn : s.n = s'.n)
    (h : ∀ p, p < 8 * s.n.toNat → s.streamBit p = s'.streamBit p) {j : Nat} (hj : j < s.n.toNat) :
    s.byteAt j = s'.byteAt j := by
  refine BitVec.eq_of_getLsbD_eq fun b hb => ?_
  have hlt : 8 * j + (7 - b) < 8 * s.n.toNat := by omega
  have bit_eq := h _ hlt
  rw [State.streamBit_of_lt hlt, State.streamBit_of_lt (hn ▸ hlt)] at bit_eq
  rwa [show (8 * j + (7 - b)) / 8 = j by omega, show 7 - (8 * j + (7 - b)) % 8 = b by omega] at bit_eq

theorem State.byteAt_putSymbol_of_le {s : State} {j : Nat} (h : s.n.toNat ≤ j) (i : Nat) (v : Symbol) :
    (s.putSymbol i v).byteAt j = s.byteAt j := by
  rw [State.byteAt_putSymbol, if_neg (fun hreach => Nat.not_lt.2 h hreach.2.2)]

/-- The low 11 bits of an operand are the symbol's. -/
theorem getLsbD_setWidth_symbol (val : Cell16) (b : Nat) :
    (val.setWidth 11).getLsbD (10 - b) = val.getLsbD (10 - b) := by
  rw [BitVec.getLsbD_setWidth, decide_eq_true (show 10 - b < 11 by omega), Bool.true_and]

/-- Two operands of PUT11 that agree on the bits below `8N` write the same cells (R83). -/
theorem State.byteAt_putSymbol_congr {s : State} {i : Nat} {v v' : Symbol}
    (h : ∀ b, b < 11 → 11 * i + b < 8 * s.n.toNat → v'.getLsbD (10 - b) = v.getLsbD (10 - b)) (j : Nat) :
    (s.putSymbol i v').byteAt j = (s.putSymbol i v).byteAt j := by
  obtain hlt | hge := Nat.lt_or_ge j s.n.toNat
  · refine State.byteAt_eq_of_streamBit ((s.putSymbol_n i v').trans (s.putSymbol_n i v).symm) (fun p hp => ?_)
      (s.putSymbol_n i v' ▸ hlt)
    rw [s.putSymbol_n] at hp
    rw [State.streamBit_putSymbol, State.streamBit_putSymbol]
    split
    case isTrue hfield =>
      obtain ⟨hlo, hhi, -⟩ := hfield
      exact h _ (by omega) (by omega)
    case isFalse => rfl
  · rw [State.byteAt_putSymbol_of_le hge, State.byteAt_putSymbol_of_le hge]

/-- Settles O34: on the stream PUT11 is one assignment of 11 positions, cut off at `8N`. -/
theorem put11KeepsNeighboursAndDropsTheTail : Obligations.Put11KeepsNeighboursAndDropsTheTail := by
  intro s idx val hval
  obtain ⟨b, hb⟩ := s.putSymbol_frame idx.toNat (val.setWidth 11)
  refine ⟨_, exec_of_effect (.put11 idx hval), by rw [hb]; rfl, fun p hp => ?_,
    fun j hj => State.byteAt_putSymbol_of_le hj _ _, fun val' hval' hagree => ?_⟩
  · rw [State.streamBit_putSymbol, getLsbD_setWidth_symbol]
    exact if_congr (by omega) rfl rfl
  · refine ⟨_, exec_of_effect (.put11 idx hval'), State.byteAt_putSymbol_congr fun b hb hlt => ?_⟩
    rw [getLsbD_setWidth_symbol, getLsbD_setWidth_symbol, hagree b hb hlt]

/-- A symbol put inside the ByteBuffer is the symbol there (R82). -/
theorem State.symbol_putSymbol_same {s : State} {i : Nat} (v : Symbol) (hinside : 11 * i + 11 ≤ 8 * s.n.toNat) :
    (s.putSymbol i v).symbol i = v := by
  refine (State.eq_symbol_of_getLsbD fun t ht => ?_).symm
  rw [State.streamBit_putSymbol, if_pos (by omega), Nat.add_sub_cancel_left]

/-- The fields of two symbols do not overlap (R82). -/
theorem State.symbol_putSymbol_of_ne {i i' : Nat} (s : State) (v : Symbol) (hne : i' ≠ i) :
    (s.putSymbol i v).symbol i' = s.symbol i' := by
  refine State.eq_symbol_of_getLsbD fun t ht => ?_
  rw [State.symbol_getLsbD _ _ _ ht, State.streamBit_putSymbol, if_neg (by omega)]

/-- Settles O35, with the two laws of `get11` after `put11`. -/
theorem getAfterPutReturnsTheSymbol : Obligations.GetAfterPutReturnsTheSymbol := by
  intro s idx val hval
  refine ⟨_, exec_of_effect (.put11 idx hval), fun hinside => ?_, fun i hne => ?_⟩
  · refine (exec_of_effect (.get11 idx)).trans ?_
    rw [State.symbol_putSymbol_same _ hinside, setWidth_setWidth_of_lt (Nat.lt_succ_of_le hval) (by decide)]
    rfl
  · rw [← State.symbol_toNat, State.symbol_putSymbol_of_ne _ _ hne, State.symbol_toNat]

/-! ### JOIN and SPLIT (R88, R89) -/

theorem State.rejoined_n (s : State) : s.rejoined.n = s.n := s.zeroBuffer.putSymbols_n s.k.toNat

/-- What JOIN leaves on the bit stream: the bits of the symbols below `K`, then zeros (R88). -/
theorem State.streamBit_rejoined (s : State) (p : Nat) :
    s.rejoined.streamBit p =
      if p / 11 < s.k.toNat ∧ p < 8 * s.n.toNat then (s.symAt (p / 11)).getLsbD (10 - p % 11) else false := by
  rw [State.rejoined, State.streamBit_putSymbols, s.streamBit_zeroBuffer]
  rfl

/-- The bits of a symbol after JOIN, most significant first (R89). -/
theorem State.streamBit_rejoined_symbol (s : State) {i b : Nat} (hi : i < s.k.toNat) (hb : b < 11) :
    s.rejoined.streamBit (11 * i + b) =
      if 11 * i + b < 8 * s.n.toNat then (s.symAt i).getLsbD (10 - b) else false := by
  rw [s.streamBit_rejoined, show (11 * i + b) / 11 = i by omega, show (11 * i + b) % 11 = b by omega]
  exact if_congr (and_iff_right hi) rfl rfl

/-- Settles O42: the bits of `get11` are the stream's, which JOIN writes symbol by symbol. -/
theorem symbolsAfterJoin : Obligations.SymbolsAfterJoin := by
  intro s hgood
  refine ⟨_, exec_of_effect (.join (s.badSymbol_eq_none.2 hgood)), fun i hi b hb => ?_⟩
  rw [State.get11Value_testBit _ _ hb, s.streamBit_rejoined_symbol hi hb]

/-- What SPLIT leaves in a state that meets the invariant: the count fits `K`, as `N` is within the capacity (R86). -/
theorem State.regrouped_k_toNat {s : State} (hinv : StateInv s) : s.regrouped.k.toNat = symbolCount s.n.toNat :=
  State.described_k_toNat hinv

theorem State.symAt_regrouped {s : State} {i : Nat} (hi : i < symbolCount s.n.toNat) :
    s.regrouped.symAt i = (s.symbol i).setWidth 16 :=
  (s.symAt_setPrefix _ i _).trans (if_pos hi)

/-- JOIN in a state that holds the symbols of a buffer, and its length in `N` and `K`, completes and leaves the buffer. -/
theorem join_of_symbols {s v : State} (hn : v.n = s.n) (hk : v.k.toNat = symbolCount s.n.toNat)
    (hsym : ∀ i, i < v.k.toNat → v.symAt i = (s.symbol i).setWidth 16) :
    exec .join v = .next v.rejoined ∧ ∀ j, j < s.n.toNat → v.rejoined.byteAt j = s.byteAt j := by
  refine ⟨exec_of_effect (.join (v.badSymbol_eq_none.2 fun i hi => ?_)), fun j hj => ?_⟩
  · rw [hsym i hi, BitVec.toNat_setWidth_of_le (by decide), s.symbol_toNat]
    exact s.get11Value_le i
  · refine State.byteAt_eq_of_streamBit (v.rejoined_n.trans hn) (fun p hp => ?_) (by rwa [v.rejoined_n, hn])
    rw [v.rejoined_n, hn] at hp
    have covered : p / 11 < v.k.toNat := by
      unfold symbolCount at hk
      omega
    rw [v.streamBit_rejoined, if_pos ⟨covered, hn ▸ hp⟩, hsym _ covered, BitVec.getLsbD_setWidth,
      s.symbol_getLsbD _ _ (by omega), Nat.div_add_mod, decide_eq_true (show 10 - p % 11 < 16 by omega), Bool.true_and]

/-- Settles O41: SPLIT leaves the buffer's symbols, and both commands leave the cells from `N` on. -/
theorem joinUndoesSplit : Obligations.JoinUndoesSplit := by
  intro s hinv
  have hk := State.regrouped_k_toNat hinv
  obtain ⟨hexec, hbytes⟩ := join_of_symbols (s := s) (v := s.regrouped) rfl hk
    fun i hi => State.symAt_regrouped (hk ▸ hi)
  have hframe := s.regrouped.rejoined_frame
  refine ⟨s.regrouped, s.regrouped.rejoined, exec_of_effect .split, hexec, s.regrouped.rejoined_n, ?_, fun j => ?_⟩
  · obtain ⟨b, hb⟩ := hframe
    rw [hb]
    rfl
  · obtain hlt | hge := Nat.lt_or_ge j s.n.toNat
    · exact hbytes j hlt
    · exact State.byteAt_rejoined_of_le (s := s.regrouped) hge

/-- A zero-extended symbol is a cell exactly when their 11 bits agree and the cell holds a Symbol. -/
theorem setWidth_symbol_eq_iff {v : Symbol} {x : Cell16} (hx : x.toNat ≤ 2047) :
    v.setWidth 16 = x ↔ ∀ b, b < 11 → v.getLsbD (10 - b) = x.getLsbD (10 - b) := by
  constructor
  · rintro rfl b hb
    rw [BitVec.getLsbD_setWidth, decide_eq_true (show 10 - b < 16 by omega), Bool.true_and]
  · intro h
    have symbol_eq : v = x.setWidth 11 := BitVec.eq_of_getLsbD_eq fun b hb => by
      have bit_eq := (h (10 - b) (by omega)).trans (getLsbD_setWidth_symbol x (10 - b)).symm
      rwa [show 10 - (10 - b) = b by omega] at bit_eq
    rw [symbol_eq, setWidth_setWidth_of_lt (Nat.lt_succ_of_le hx) (by decide)]

/-- A number has no low bits exactly when a power of two divides it. -/
theorem mod_two_pow_eq_zero_iff {x : Cell16} {d : Nat} :
    x.toNat % 2 ^ d = 0 ↔ ∀ b, b < d → x.getLsbD b = false := by
  constructor
  · intro h b hb
    have bit_eq := Nat.testBit_mod_two_pow x.toNat d b
    rw [h, Nat.zero_testBit, decide_eq_true hb, Bool.true_and] at bit_eq
    rw [← BitVec.testBit_toNat, ← bit_eq]
  · intro h
    refine Nat.eq_of_testBit_eq fun b => ?_
    rw [Nat.testBit_mod_two_pow, Nat.zero_testBit, BitVec.testBit_toNat]
    by_cases hb : b < d
    · rw [h b hb, Bool.and_false]
    · rw [decide_eq_false hb, Bool.false_and]

/-- After JOIN a symbol is the cell it was put from exactly when the cell's bits from `8N` on are 0. -/
theorem State.symbol_rejoined_eq_iff {s : State} {i : Nat} (hi : i < s.k.toNat) (hsym : (s.symAt i).toNat ≤ 2047) :
    (s.rejoined.symbol i).setWidth 16 = s.symAt i ↔
      ∀ b, b < 11 → 8 * s.n.toNat ≤ 11 * i + b → (s.symAt i).getLsbD (10 - b) = false := by
  rw [setWidth_symbol_eq_iff hsym]
  refine forall₂_congr fun b hb => ?_
  rw [State.symbol_getLsbD _ _ _ hb, s.streamBit_rejoined_symbol hi hb]
  by_cases hlt : 11 * i + b < 8 * s.n.toNat
  · simp [hlt]
  · rw [if_neg hlt, eq_comm, forall_prop_of_true (Nat.not_lt.1 hlt)]

/-- With as many symbols as the buffer has, only the last one reaches beyond `8N`. -/
theorem State.symbols_rejoined_eq_iff {s : State} (hk : s.k.toNat = symbolCount s.n.toNat)
    (hsyms : ∀ i, i < s.k.toNat → (s.symAt i).toNat ≤ 2047) :
    (∀ i, i < s.k.toNat → (s.rejoined.symbol i).setWidth 16 = s.symAt i) ↔
      (1 ≤ s.k.toNat → (s.symAt (s.k.toNat - 1)).toNat % 2 ^ (11 * s.k.toNat - 8 * s.n.toNat) = 0) := by
  unfold symbolCount at hk
  constructor
  · intro h hpos
    have hlast : s.k.toNat - 1 < s.k.toNat := by omega
    have cleared := (State.symbol_rejoined_eq_iff hlast (hsyms _ hlast)).1 (h _ hlast)
    refine mod_two_pow_eq_zero_iff.2 fun b hb => ?_
    have bit_eq := cleared (10 - b) (by omega) (by omega)
    rwa [show 10 - (10 - b) = b by omega] at bit_eq
  · intro h i hi
    refine (State.symbol_rejoined_eq_iff hi (hsyms i hi)).2 fun b hb hbeyond => ?_
    obtain rfl : i = s.k.toNat - 1 := by omega
    exact mod_two_pow_eq_zero_iff.1 (h (by omega)) _ (by omega)

/-- Settles O43: SPLIT after JOIN leaves the symbols of the joined buffer, `ceil(8N/11)` of them. -/
theorem splitAfterJoinReproducesExactly : Obligations.SplitAfterJoinReproducesExactly := by
  intro s hinv hsyms
  have hjoin : Effect s .join s.rejoined := .join (s.badSymbol_eq_none.2 hsyms)
  have hk : s.rejoined.regrouped.k.toNat = symbolCount s.n.toNat :=
    s.rejoined_n ▸ State.regrouped_k_toNat (hinv.of_effect hjoin)
  refine ⟨s.rejoined, s.rejoined.regrouped, exec_of_effect hjoin, exec_of_effect .split, ?_⟩
  rw [← BitVec.toNat_inj, hk, eq_comm]
  refine and_congr_right fun hcount => ?_
  rw [← State.symbols_rejoined_eq_iff hcount hsyms]
  refine forall₂_congr fun i hi => ?_
  rw [State.symAt_regrouped (by rwa [s.rejoined_n, ← hcount])]

/-! ### Canonical triples (R104) -/

/-- A count, a marker and a descriptor that meet the criterion of R104 are those of the length their bits stand for. -/
theorem length_of_canonicalTriple {k r : Nat} {marked : Bool} (h : CanonicalTriple k marked r) :
    symbolCount (dataBits k marked r / 8) = k ∧ descriptor (dataBits k marked r / 8) = r := by
  obtain ⟨whole, hmarker⟩ := h
  unfold symbolCount descriptor
  unfold dataBits rawBitLen at *
  cases marked with
  | true =>
    obtain ⟨one_le, le_ten, count_pos⟩ := hmarker
    simp only [if_true] at whole ⊢
    omega
  | false =>
    obtain rfl : r = 0 := hmarker
    simp only [Bool.false_eq_true, if_false] at whole ⊢
    omega

/-- The marker is the descriptor's not being 0, on both sides (R19, R104). -/
theorem CanonicalTriple.marked_iff {k r : Nat} {marked : Bool} (h : CanonicalTriple k marked r) :
    marked = true ↔ r ≠ 0 := by
  obtain ⟨-, hmarker⟩ := h
  cases marked with
  | true => exact iff_of_true rfl (Nat.one_le_iff_ne_zero.1 hmarker.1)
  | false => exact iff_of_false Bool.false_ne_true (not_not.2 hmarker)

/-- Settles O50: a length's own triple stands for `8n` bits, and a canonical triple is that of the length it stands
for. -/
theorem canonicalTriplesAreThoseOfSomeLength : Obligations.CanonicalTriplesAreThoseOfSomeLength := by
  intro k marked r
  constructor
  · rintro ⟨n, rfl, rfl, rfl⟩
    refine ⟨by rw [dataBits_of_length, Nat.mul_mod_right], ?_⟩
    split
    case isTrue hmarked =>
      have padded := (marker_eq_one_iff n).1 (of_decide_eq_true hmarked)
      exact ⟨Nat.one_le_iff_ne_zero.2 padded, descriptor_le n, (bits_of_descriptor_ne_zero padded).2⟩
    case isFalse hplain => simpa [marker_eq_one_iff] using hplain
  · intro h
    obtain ⟨count_eq, descriptor_eq⟩ := length_of_canonicalTriple h
    refine ⟨dataBits k marked r / 8, count_eq, ?_, descriptor_eq⟩
    rw [Bool.eq_iff_iff, decide_eq_true_iff, marker_eq_one_iff, descriptor_eq, h.marked_iff]

/-! ### The round trip (R118) -/

/-- DECLEN's descriptor check is a function of `K`, `M` and, with the marker, `R` (R27). -/
theorem State.malformed_congr {s s' : State} (hk : s.k = s'.k) (hm : s.m = s'.m) (hr : s'.m = 1#1 → s.r = s'.r) :
    s.Malformed ↔ s'.Malformed := by
  unfold State.Malformed
  rw [hm, hk]
  exact and_congr_right fun hmarked => by rw [hr hmarked]

/-- DECLEN's length is a function of `K`, `M` and, with the marker, `R` (R27). -/
theorem State.declenValue_congr {s s' : State} (hk : s.k = s'.k) (hm : s.m = s'.m) (hr : s'.m = 1#1 → s.r = s'.r) :
    s.declenValue = s'.declenValue := by
  unfold State.declenValue
  rw [hm, hk]
  split
  case isTrue hmarked => rw [hr hmarked]
  case isFalse => rfl

/-- Settles O51: DECLEN sees the triple of the length `N`, and JOIN then the symbols of the buffer. -/
theorem decodingWhatWasEncodedRestoresTheBytes : Obligations.DecodingWhatWasEncodedRestoresTheBytes := by
  intro s hinv
  have ⟨_, hn, _⟩ := hinv
  refine ⟨s.described, s.described.regrouped, exec_enclen s, exec_of_effect .split, fun u hcfg hk hm hr hsym => ?_⟩
  have wellFormed : ¬ u.Malformed :=
    mt (State.malformed_congr (s' := s.described) hk hm hr).1 (State.described_not_malformed hinv)
  have length_eq : u.declenValue = s.n.toNat :=
    (State.declenValue_congr (s' := s.described) hk hm hr).trans (State.described_declenValue hinv)
  have inRange : u.declenValue ≤ u.bmax := by
    rw [length_eq, State.bmax, hcfg]
    exact hn
  have taken_n : u.lengthTaken.n = s.n := by
    rw [State.lengthTaken, State.withN_n, length_eq, BitVec.ofNat_toNat, BitVec.setWidth_eq]
  have taken_k : u.lengthTaken.k.toNat = symbolCount s.n.toNat :=
    (congrArg BitVec.toNat hk).trans (State.described_k_toNat (s := s) hinv)
  have taken_sym : ∀ i, i < u.lengthTaken.k.toNat → u.lengthTaken.symAt i = (s.symbol i).setWidth 16 := fun i hi =>
    (hsym i ((congrArg BitVec.toNat hk) ▸ hi)).trans (State.symAt_regrouped (s := s.described) (taken_k ▸ hi))
  obtain ⟨hjoin, hbytes⟩ := join_of_symbols taken_n taken_k taken_sym
  obtain ⟨b, hb⟩ := u.lengthTaken.rejoined_frame
  refine ⟨u.lengthTaken, u.lengthTaken.rejoined, exec_of_effect (.declen wellFormed inRange), hjoin,
    u.lengthTaken.rejoined_n.trans taken_n, ?_, hbytes⟩
  rw [hb]
  rfl

end Sys2Proof.Machine
end

section
/-! The remaining statements of 10_state.md and 20_memory.md about all commands together: what the results depend on
(R27), and that a command other than SHL11 changes nothing more when it is repeated (R37). -/

namespace Sys2Proof.Machine

/-! ### No hidden state (R27) -/

section

variable {s s' : State} (hn : s.n = s'.n)

include hn

theorem split_depends_on_buffer (hcells : ∀ j, j < s.n.toNat → s.byteAt j = s'.byteAt j) :
    ∃ t t', exec .split s = .next t ∧ exec .split s' = .next t' ∧ t.k = t'.k ∧
      ∀ i, i < symbolCount s.n.toNat → t.symAt i = t'.symAt i := by
  refine ⟨s.regrouped, s'.regrouped, exec_of_effect .split, exec_of_effect .split, ?_, fun i hi => ?_⟩
  · exact congrArg (fun n : BitVec 13 => BitVec.ofNat 12 (symbolCount n.toNat)) hn
  · rw [State.symAt_regrouped hi, State.symAt_regrouped (hn ▸ hi),
      State.symbol_congr hn fun j _ _ hj => hcells j hj]

theorem shl11_depends_on_buffer (hcells : ∀ j, j < s.n.toNat → s.byteAt j = s'.byteAt j) :
    ∃ t t', exec .shl11 s = .next t ∧ exec .shl11 s' = .next t' ∧
      ∀ j, j < s.n.toNat → t.byteAt j = t'.byteAt j := by
  refine ⟨s.shifted, s'.shifted, exec_shl11 s, exec_shl11 s', fun j hj => ?_⟩
  rw [s.byteAt_shifted, s'.byteAt_shifted, if_pos hj, if_pos (hn ▸ hj), State.padded_congr hn (hcells _),
    State.padded_congr hn (hcells _)]

theorem get11_depends_on_window (idx : Idx)
    (hcells : ∀ j, firstCell idx.toNat ≤ j → j ≤ firstCell idx.toNat + 2 → j < s.n.toNat → s.byteAt j = s'.byteAt j) :
    ∃ t t', exec (.get11 idx) s = .next t ∧ exec (.get11 idx) s' = .next t' ∧ t.out = t'.out :=
  ⟨_, _, exec_of_effect (.get11 idx), exec_of_effect (.get11 idx),
    congrArg (BitVec.setWidth 16) (State.symbol_congr hn hcells)⟩

theorem put11_depends_on_window (idx : Idx) (val : Cell16)
    (hcells : ∀ j, firstCell idx.toNat ≤ j → j ≤ firstCell idx.toNat + 2 → j < s.n.toNat → s.byteAt j = s'.byteAt j) :
    ∃ t t', exec (.put11 idx val) s = .next t ∧ exec (.put11 idx val) s' = .next t' ∧
      (∀ j, firstCell idx.toNat ≤ j → j ≤ firstCell idx.toNat + 2 → j < s.n.toNat → t.byteAt j = t'.byteAt j) ∧
      (2047 < val.toNat → t.fault = t'.fault ∧ t.finfo = t'.finfo) := by
  obtain hbad | hgood := Nat.lt_or_ge 2047 val.toNat
  · exact ⟨_, _, exec_of_commandFaults ⟨rfl, rfl, hbad⟩, exec_of_commandFaults ⟨rfl, rfl, hbad⟩, hcells,
      fun _ => ⟨rfl, rfl⟩⟩
  · refine ⟨_, _, exec_of_effect (.put11 idx hgood), exec_of_effect (.put11 idx hgood), fun j hlo hhi hlt => ?_,
      fun hbad => absurd hbad (Nat.not_lt.2 hgood)⟩
    rw [State.byteAt_putSymbol, State.byteAt_putSymbol, hcells j hlo hhi hlt, hn]

theorem join_depends_on_symbols (hk : s.k = s'.k) (hcells : ∀ i, i < s.k.toNat → s.symAt i = s'.symAt i) :
    ∃ t t', exec .join s = .next t ∧ exec .join s' = .next t' ∧
      ((∀ i, i < s.k.toNat → (s.symAt i).toNat ≤ 2047) → ∀ j, j < s.n.toNat → t.byteAt j = t'.byteAt j) ∧
      ((∃ i, i < s.k.toNat ∧ 2047 < (s.symAt i).toNat) → t.fault = 1#3 ∧ t'.fault = 1#3 ∧ t.finfo = t'.finfo) := by
  have check_eq := State.badSymbol_congr hk hcells
  cases hcheck : s.badSymbol with
  | none =>
    refine ⟨_, _, exec_of_effect (.join hcheck), exec_of_effect (.join (check_eq.symm.trans hcheck)),
      fun _ j hj => ?_, fun ⟨i, hi, hbad⟩ => absurd hbad (Nat.not_lt.2 (s.badSymbol_eq_none.1 hcheck i hi))⟩
    refine State.byteAt_eq_of_streamBit (s.rejoined_n.trans (hn.trans s'.rejoined_n.symm)) (fun p _ => ?_)
      (s.rejoined_n ▸ hj)
    rw [s.streamBit_rejoined, s'.streamBit_rejoined, hn, hk]
    split
    case isTrue h => rw [hcells _ (hk ▸ h.1)]
    case isFalse => rfl
  | some i =>
    have faults {u : State} (hu : u.badSymbol = some i) : CommandFaults .join u .invalidSymbol (BitVec.ofNat 16 i) :=
      (commandFaults_join_iff u _ _).2 ⟨rfl, i, hu, rfl⟩
    refine ⟨_, _, exec_of_commandFaults (faults hcheck), exec_of_commandFaults (faults (check_eq.symm.trans hcheck)),
      fun hgood => ?_, fun _ => ⟨rfl, rfl, rfl⟩⟩
    cases (s.badSymbol_eq_none.2 hgood).symm.trans hcheck

theorem enclen_depends_on_length :
    ∃ t t', exec .enclen s = .next t ∧ exec .enclen s' = .next t' ∧ t.k = t'.k ∧ t.r = t'.r ∧ t.m = t'.m :=
  ⟨_, _, exec_enclen s, exec_enclen s',
    congrArg (fun n : BitVec 13 => BitVec.ofNat 12 (symbolCount n.toNat)) hn,
    congrArg (fun n : BitVec 13 => BitVec.ofNat 4 (descriptor n.toNat)) hn,
    congrArg (fun n : BitVec 13 => marker n.toNat) hn⟩

end

theorem declen_depends_on_triple {s s' : State} (hcfg : s.cfg = s'.cfg) (hk : s.k = s'.k) (hm : s.m = s'.m)
    (hr : s.r = s'.r) (hrun : Running s) (hrun' : Running s') :
    ∃ t t', exec .declen s = .next t ∧ exec .declen s' = .next t' ∧ t.fault = t'.fault ∧ t.r = t'.r ∧
      (t.fault = 0#3 → t.n = t'.n) := by
  have malformed_iff := State.malformed_congr hk hm fun _ => hr
  have length_eq := State.declenValue_congr hk hm fun _ => hr
  have bmax_eq : s.bmax = s'.bmax := congrArg Config.bmax hcfg
  by_cases hmal : s.Malformed
  · exact ⟨_, _, exec_of_commandFaults ((commandFaults_declen_iff s _ _).2 (.inl ⟨rfl, rfl, hmal⟩)),
      exec_of_commandFaults ((commandFaults_declen_iff s' _ _).2 (.inl ⟨rfl, rfl, malformed_iff.1 hmal⟩)), rfl, hr,
      fun h => absurd h (Cause.code_ne_zero .malformedPadding)⟩
  have hmal' := mt malformed_iff.2 hmal
  obtain hlt | hle := Nat.lt_or_ge s.bmax s.declenValue
  · have hlt' : s'.bmax < s'.declenValue := by rwa [← bmax_eq, ← length_eq]
    exact ⟨_, _, exec_of_commandFaults ((commandFaults_declen_iff s _ _).2 (.inr ⟨rfl, rfl, hmal, hlt⟩)),
      exec_of_commandFaults ((commandFaults_declen_iff s' _ _).2 (.inr ⟨rfl, rfl, hmal', hlt'⟩)), rfl, hr,
      fun h => absurd h (Cause.code_ne_zero .operandRange)⟩
  · have hle' : s'.declenValue ≤ s'.bmax := by rwa [← bmax_eq, ← length_eq]
    have r_eq : s.lengthTaken.r = s'.lengthTaken.r := by
      change (if s.m = 0#1 then 0#4 else s.r) = if s'.m = 0#1 then 0#4 else s'.r
      rw [hm, hr]
    exact ⟨_, _, exec_of_effect (.declen hmal hle), exec_of_effect (.declen hmal' hle'), hrun.trans hrun'.symm, r_eq,
      fun _ => congrArg (BitVec.ofNat 13) length_eq⟩

/-- Settles O53, command by command. -/
theorem resultsDependOnNamedInputsOnly : Obligations.ResultsDependOnNamedInputsOnly := fun _ _ =>
  ⟨fun hn hcells => ⟨split_depends_on_buffer hn hcells, shl11_depends_on_buffer hn hcells⟩,
    fun idx hn hcells =>
      ⟨get11_depends_on_window hn idx hcells, fun val => put11_depends_on_window hn idx val hcells⟩,
    join_depends_on_symbols, enclen_depends_on_length, declen_depends_on_triple⟩

/-! ### Writing what stands there (R37) -/

/-- Writing to a written cell the value it has changes nothing. -/
theorem Memory.set_eq_self {w lo a : Nat} {v : BitVec w} {m : Memory w} (hm : Memory.risingFrom lo m = true)
    (h : Memory.get? a m = some v) : Memory.set a v m = m := by
  induction m generalizing lo with
  | nil => cases h
  | cons cell m ih =>
    obtain ⟨b, u⟩ := cell
    rw [Memory.risingFrom_cons] at hm
    rw [Memory.get?_cons] at h
    unfold Memory.set
    split at h
    case isTrue heq =>
      subst heq
      rw [if_neg (Nat.lt_irrefl a), if_pos rfl, Option.some.inj h]
    case isFalse hne =>
      have beyond : ¬ a < b := fun hlt => by cases (Memory.get?_of_lt hm.2 (Nat.lt_succ_of_lt hlt)).symm.trans h
      rw [if_neg beyond, if_neg hne, ih hm.2 h]

/-- Writing the same first cells twice is writing them once. -/
theorem Memory.setPrefix_setPrefix {w n : Nat} (f : Nat → BitVec w) (m : Memory w) :
    Memory.setPrefix n f (Memory.setPrefix n f m) = Memory.setPrefix n f m := by
  have no_prefix : ((List.range n).map fun j => (j, f j)).filter (fun c => decide (n ≤ c.1)) = [] := by
    simp [List.filter_eq_nil_iff]
  rw [Memory.setPrefix, Memory.setPrefix, List.filter_append, no_prefix, List.nil_append, List.filter_filter]
  simp only [Bool.and_self]

theorem State.writeByte_eq_self {s : State} {cells j : Nat} {v : Byte} (hbuf : s.buf.wf cells = true)
    (h : s.buf.get? j = some v) : s.writeByte j v = s := by
  rw [State.writeByte, Memory.set_eq_self ((Memory.wf_iff _ _).1 hbuf).1 h]
  rfl

theorem State.writeSym_eq_self {s : State} {cells i : Nat} {v : Cell16} (hsym : s.sym.wf cells = true)
    (h : s.sym.get? i = some v) : s.writeSym i v = s := by
  rw [State.writeSym, Memory.set_eq_self ((Memory.wf_iff _ _).1 hsym).1 h]
  rfl

/-! ### PUT11 and JOIN repeated -/

/-- Replacing a cell's field bits twice is replacing them once. -/
theorem maskedByte_maskedByte (old : Byte) (i : Nat) (v : Symbol) {t : Nat} (ht : t < 3) :
    maskedByte (maskedByte old i v t) i v t = maskedByte old i v t := by
  refine BitVec.eq_of_getLsbD_eq fun b hb => ?_
  rw [maskedByte_getLsbD _ _ _ _ _ ht hb, maskedByte_getLsbD _ _ _ _ _ ht hb]
  split <;> rfl

/-- `put11` lists each cell below `N` that has bits of the field, with the masked value (R82). -/
theorem State.get?_putSymbol {s : State} {i : Nat} {v : Symbol} {t : Nat} (ht : t < 3)
    (hwrite : firstCell i + t < s.n.toNat ∧ windowCell (fieldMask i) t ≠ 0#8) :
    (s.putSymbol i v).buf.get? (firstCell i + t) = some (maskedByte (s.byteAt (firstCell i + t)) i v t) := by
  obtain ⟨hlt, hmask⟩ := hwrite
  rw [State.putSymbol, State.get?_putCell, State.get?_putCell, State.get?_putCell, State.putCell_n, State.putCell_n,
    State.byteAt_putCell _ _ _ _ _ (by decide), State.byteAt_putCell _ _ _ _ _ (by decide), State.putCell_n]
  obtain rfl | rfl | rfl : t = 0 ∨ t = 1 ∨ t = 2 := by omega
  · simp [show firstCell i < s.n.toNat from hlt, hmask]
  · simp [hlt, hmask]
  · simp [hlt, hmask]

/-- A turn of `put11` that would write what the cell holds changes nothing. -/
theorem State.putCell_eq_self {s : State} {cells i : Nat} {v : Symbol} {t : Nat} (hbuf : s.buf.wf cells = true)
    (h : firstCell i + t < s.n.toNat ∧ windowCell (fieldMask i) t ≠ 0#8 →
      s.buf.get? (firstCell i + t) = some (maskedByte (s.byteAt (firstCell i + t)) i v t)) :
    s.putCell i v t = s := by
  unfold State.putCell
  dsimp only
  split
  case isTrue hwrite => exact State.writeByte_eq_self hbuf (h hwrite)
  case isFalse => rfl

/-- Putting the same symbol twice is putting it once. -/
theorem State.putSymbol_putSymbol {s : State} {cells : Nat} (hbuf : s.buf.wf cells = true) (hn : s.n.toNat ≤ cells)
    (i : Nat) (v : Symbol) : (s.putSymbol i v).putSymbol i v = s.putSymbol i v := by
  have kept (t : Nat) (ht : t < 3) : (s.putSymbol i v).putCell i v t = s.putSymbol i v := by
    refine State.putCell_eq_self (State.wf_putSymbol hbuf hn i v) fun hwrite => ?_
    rw [s.putSymbol_n] at hwrite
    have listed := State.get?_putSymbol (v := v) ht hwrite
    have holds : (s.putSymbol i v).byteAt (firstCell i + t) = maskedByte (s.byteAt (firstCell i + t)) i v t := by
      rw [State.byteAt, listed, Option.getD_some]
    rw [listed, holds, maskedByte_maskedByte _ _ _ ht]
  rw [State.putSymbol, kept 0 (by decide), kept 1 (by decide), kept 2 (by decide)]

/-- `put11` leaves the list of written cells from `N` on as it is. -/
theorem State.get?_putSymbol_of_le {s : State} {c : Nat} (h : s.n.toNat ≤ c) (i : Nat) (v : Symbol) :
    (s.putSymbol i v).buf.get? c = s.buf.get? c := by
  have notBelow : ¬ c < s.n.toNat := Nat.not_lt.2 h
  simp only [State.putSymbol, State.get?_putCell, State.putCell_n, notBelow, false_and, and_false, if_false]

theorem State.get?_putSymbols_of_le {s : State} {c : Nat} (h : s.n.toNat ≤ c) (count : Nat) :
    (s.putSymbols count).buf.get? c = s.buf.get? c := by
  induction count with
  | zero => rfl
  | succ count ih => rw [State.putSymbols, State.get?_putSymbol_of_le (s.putSymbols_n count ▸ h), ih]

/-- JOIN writes below `N` only, where it zeroes every cell first, so zeroing again leads to the same cells. -/
theorem State.zeroBuffer_rejoined {s : State} {cells : Nat} (hbuf : s.buf.wf cells = true) (hn : s.n.toNat ≤ cells) :
    s.rejoined.zeroBuffer = s.zeroBuffer := by
  have zeroed_wf := State.wf_zeroBuffer hbuf hn
  have joined_wf : s.rejoined.buf.wf cells = true := State.wf_putSymbols zeroed_wf hn s.k.toNat
  have buf_eq : s.rejoined.zeroBuffer.buf = s.zeroBuffer.buf := by
    refine Memory.eq_of_get?_eq (State.wf_zeroBuffer joined_wf (s.rejoined_n ▸ hn)) zeroed_wf fun c => ?_
    rw [State.zeroBuffer, State.withBuf_buf, Memory.get?_setPrefix, s.rejoined_n, State.zeroBuffer, State.withBuf_buf,
      Memory.get?_setPrefix]
    split
    case isTrue => rfl
    case isFalse hge =>
      have hle := Nat.not_lt.1 hge
      rw [State.rejoined, State.get?_putSymbols_of_le (s := s.zeroBuffer) hle, State.zeroBuffer, State.withBuf_buf,
        Memory.get?_setPrefix, if_neg hge]
  obtain ⟨b, hb⟩ := s.rejoined_frame
  have frame_eq : s.rejoined.zeroBuffer = s.withBuf s.rejoined.zeroBuffer.buf := by rw [hb]; rfl
  rw [frame_eq, buf_eq]
  rfl

theorem State.rejoined_rejoined {s : State} {cells : Nat} (hbuf : s.buf.wf cells = true) (hn : s.n.toNat ≤ cells) :
    s.rejoined.rejoined = s.rejoined := by
  have k_eq : s.rejoined.k = s.k := by
    obtain ⟨b, hb⟩ := s.rejoined_frame
    rw [hb, State.withBuf_k]
  rw [State.rejoined, State.zeroBuffer_rejoined hbuf hn, k_eq, ← State.rejoined]

/-! ### Every command repeated -/

/-- The bounds of SETR are constants of the block. -/
theorem State.writeOperand_operandMax? (s : State) (val : Cell16) (x : OperandReg) :
    (s.writeOperand val x).operandMax? x = s.operandMax? x := by
  cases x <;> rfl

theorem State.writeOperand_writeOperand (s : State) (val : Cell16) (x : OperandReg) :
    (s.writeOperand val x).writeOperand val x = s.writeOperand val x := by
  cases x <;> rfl

theorem State.regrouped_regrouped (s : State) : s.regrouped.regrouped = s.regrouped := by
  have sym_eq : s.regrouped.regrouped.sym = s.regrouped.sym := Memory.setPrefix_setPrefix _ _
  exact congrArg s.regrouped.withSym sym_eq

/-- DECLEN's inputs are not among what it writes, but for `R`, which it clears when it does not read it (R102). -/
theorem State.lengthTaken_lengthTaken (s : State) :
    (s.lengthTaken.Malformed ↔ s.Malformed) ∧ s.lengthTaken.declenValue = s.declenValue ∧
      s.lengthTaken.lengthTaken = s.lengthTaken := by
  have r_kept (hm : s.m = 1#1) : s.lengthTaken.r = s.r := if_neg (by rw [hm]; decide)
  have length_eq : s.lengthTaken.declenValue = s.declenValue := State.declenValue_congr rfl rfl r_kept
  refine ⟨State.malformed_congr rfl rfl r_kept, length_eq, ?_⟩
  have r_eq : (if s.m = 0#1 then 0#4 else s.lengthTaken.r) = s.lengthTaken.r := by
    by_cases hm : s.m = 0#1
    · exact (if_pos hm).trans (if_pos hm).symm
    · exact if_neg hm
  have twice : s.lengthTaken.lengthTaken =
      (s.lengthTaken.withR (if s.m = 0#1 then 0#4 else s.lengthTaken.r)).withN
        (BitVec.ofNat 13 s.lengthTaken.declenValue) := rfl
  rw [twice, r_eq, length_eq]
  rfl

/-- A command other than SHL11 that completed completes again, and what it would write stands there. -/
theorem Effect.repeated {s t : State} {i : Instr} (hinv : StateInv s) (hne : i ≠ .shl11) (h : Effect s i t) :
    Effect t i t := by
  have ⟨_, _, _, _, _, hbuf', hsym'⟩ := hinv.of_effect h
  have ⟨_, hn, _, _, _, hbuf, _⟩ := hinv
  cases h with
  | nop => exact .nop
  | @wrb idx val inRange =>
    have again := Effect.wrb (s := s.writeByte idx.toNat (val.setWidth 8)) val inRange
    rwa [State.writeByte_eq_self hbuf' (by rw [State.writeByte_buf, Memory.get?_set, if_pos rfl])] at again
  | rdb inRange => exact .rdb inRange
  | @wrs idx val inRange =>
    have again := Effect.wrs (s := s.writeSym idx.toNat val) val inRange
    rwa [State.writeSym_eq_self hsym' (by rw [State.writeSym_sym, Memory.get?_set, if_pos rfl])] at again
  | rds inRange => exact .rds inRange
  | @setr reg val x max named writable inRange =>
    have again := Effect.setr named ((s.writeOperand_operandMax? val x).trans writable) inRange
    rwa [s.writeOperand_writeOperand] at again
  | @getr reg x named =>
    have again := Effect.getr (s := s.withOut (s.operandValue x)) named
    rwa [State.operandValue_withOut] at again
  | get11 idx => exact .get11 idx
  | @put11 idx val isSym =>
    have again := Effect.put11 (s := s.putSymbol idx.toNat (val.setWidth 11)) idx isSym
    rwa [State.putSymbol_putSymbol hbuf hn] at again
  | split =>
    have again := Effect.split (s := s.regrouped)
    rwa [State.regrouped_regrouped] at again
  | join allSymbols =>
    have check_eq : s.rejoined.badSymbol = s.badSymbol := by
      obtain ⟨b, hb⟩ := s.rejoined_frame
      rw [hb]
      rfl
    have again := Effect.join (check_eq.trans allSymbols)
    rwa [State.rejoined_rejoined hbuf hn] at again
  | shl11 => exact absurd rfl hne
  | enclen => exact .enclen
  | declen wellFormed inRange =>
    obtain ⟨malformed_iff, length_eq, state_eq⟩ := s.lengthTaken_lengthTaken
    have again := Effect.declen (mt malformed_iff.1 wellFormed) (length_eq.trans_le inRange)
    rwa [state_eq] at again

/-- No condition of R131 is about the fault registers, so a command that faulted would fault again in the same way. -/
theorem commandFaults_latch {i : Instr} {s : State} {c : Cause} {info : BitVec 16} (h : CommandFaults i s c info)
    (cmd : Word) : CommandFaults i (s.latch c info cmd) c info := by
  cases i <;> exact h

/-- Settles O54: a fault is latched again with the same registers, and an effect stands there already. -/
theorem repeatingACommandChangesNothingMore : Obligations.RepeatingACommandChangesNothingMore := by
  intro i s t hinv hne hexec
  obtain ⟨c, info, hfaults, rfl⟩ | heffect := exec_eq_next_iff.1 hexec
  · exact exec_of_commandFaults (commandFaults_latch hfaults _)
  · exact exec_of_effect (heffect.repeated hinv hne)

end Sys2Proof.Machine
end
